-- ==== Sys2Proof/Word.lean ====
section
/-!
DEFINITION. The words of the IR pulse encoder (spec/00_scope.md R6, R7; spec/30_encoding.md R43).
-/

namespace Sys2Proof

/-- An input character `c[7:0]` (R43: `CW` = 8), and the width of the accumulator `cur` (R11). -/
abbrev Byte := BitVec 8

/-- The 4-bit value of one hexadecimal digit (spec/30_encoding.md R45). -/
abbrev Nibble := BitVec 4

/-- One duration in microseconds, "one non-negative integer" (R9). The block never computes on a duration
(R14, R58) and the width `DW` is open with the unbounded natural number as its default (R6, decision D3), so it is a
`Nat`; a finite `DW` is `Params.durationWidth`. Log 3, DEDUCED. -/
abbrev Duration := Nat

end Sys2Proof
end

