-- ==== Sys2Proof/Config.lean ====
section
/-!
DEFINITION. What a run is configured with (spec/10_state.md R14 to R17), what an implementation fixes
(spec/00_scope.md R6), and the free values.
-/

namespace Sys2Proof

/-- The configuration registers `cfg`, in the index order 0 to 7 of spec/10_state.md R14. Written by `RST` only. -/
structure Cfg where
  headerMarkLen   : Duration
  headerSpaceLen  : Duration
  bitMarkLen      : Duration
  bitZeroSpaceLen : Duration
  bitOneSpaceLen  : Duration
  tailMarkLen     : Duration
  tailSpaceLen    : Duration
  /-- `false`: most significant bit first; `true`: least significant bit first. -/
  bitOrderSwap    : Bool
deriving DecidableEq, Repr

/-- The parameters the spec leaves OPEN (R6). No step writes them; every statement holds for all their values. Log 2, DESIGN CHOICE. -/
structure Params where
  /-- `DW`: `none` is unbounded. -/
  durationWidth : Option Nat
  /-- `BUF_DEPTH` in duration words: `none` is unbounded. -/
  bufDepth      : Option Nat
  /-- `EOT_CLEARS_PEND` (spec/41_delimiters.md R61). -/
  eotClearsPend : Bool
deriving DecidableEq, Repr

/-- `CFG_DEFAULT` (spec/10_state.md R16): a named constant, built into no rule. -/
def Config.cfgDefault : Cfg where
  headerMarkLen   := 3500
  headerSpaceLen  := 1700
  bitMarkLen      := 440
  bitZeroSpaceLen := 400
  bitOneSpaceLen  := 1300
  tailMarkLen     := 440
  tailSpaceLen    := 15000
  bitOrderSwap    := false

/-- R6's defaults for the open parameters: unbounded, unbounded, `false`. -/
def Config.paramsDefault : Params where
  durationWidth := none
  bufDepth      := none
  eotClearsPend := false

/-- FREE VALUE (log 7, DESIGN CHOICE). The status word of the Transmitter's answer number `k` (spec/60_exceptions.md R74: "The status
is a **draw**"). It has no body: nothing can be proved of its value. -/
opaque Config.txStatusWord : Nat → Nat

/-- FREE VALUE (log 6, DESIGN CHOICE). The content of `cur` after `RST` number `k` (spec/70_reset_and_hazards.md R89:
`cur <- unspecified`). It has no body. -/
opaque Config.curAfterReset : Nat → Byte

end Sys2Proof
end

