-- ==== Sys2Proof/Machine/State.lean ====
section
/-!
DEFINITION. The state of the machine: the encoder's tuple (spec/10_state.md R10), the parameters, the ports
(R25) and the model's own counters; the reasons a step can stop; the state after reset (R28).
-/

namespace Sys2Proof.Machine

/-- The values of the encoder's `fault` register (spec/10_state.md R20). It is STATE: raising `BufOverflow` is a next
state with this register set, not an outcome of the step that stops the model. -/
inductive FaultCause where
  | none
  | bufOverflow
deriving DecidableEq, Repr

/-- The pulse buffer (R18, spec/20_memory.md R29): word `buf[i]` is the list's element `i`, `len` is the list's
length, and a word at an index of `len` or more does not exist. Position is the address, so two equal buffers are
equal lists (log 4, DESIGN CHOICE). -/
abbrev Memory := List Duration

/-- A stream event on port `IN` (R25). -/
inductive StreamEvent where
  | char (c : Byte)
  | eos
deriving DecidableEq, Repr

/-- What the environment offers the block when it is ready for an event (R25; spec/60_exceptions.md R80). A reset
carries the eight values standing on `CFG` at that moment (R17, spec/70_reset_and_hazards.md R89). -/
inductive Offer where
  /-- a stream event alone -/
  | stream (e : StreamEvent)
  /-- `RST` alone -/
  | reset (c : Cfg)
  /-- `RST` and a stream event at the same time: `RST` wins, the stream event is taken afterwards (R80) -/
  | resetAndStream (c : Cfg) (e : StreamEvent)
deriving DecidableEq, Repr

/-- A fraction, for the duty cycle (spec/60_exceptions.md R73: "fraction in (0,1]"). -/
structure Fraction where
  num : Nat
  den : Nat
deriving DecidableEq, Repr

/-- The argument list of one `Transmit` (spec/60_exceptions.md R73). -/
structure TxRequest where
  train : List Duration
  hz    : Nat
  duty  : Fraction
deriving DecidableEq, Repr

/-- The kinds of report (spec/60_exceptions.md R72). -/
inductive ReportKind where
  | txFailure
deriving DecidableEq, Repr

/-- One event on an output port (R25, R27). -/
inductive Output where
  | tx (r : TxRequest)
  | report (k : ReportKind)
deriving DecidableEq, Repr

/-- The state. The fields `cfg` to `fault` are the encoder's (R10; `len` is the length of `buf`); the others are what
INVENTORY.md lists under '## State' after them. -/
structure State where
  /-- the configuration registers (R14) -/
  cfg         : Cfg
  /-- the general register (R11) -/
  cur         : Byte
  /-- the pending-high-nibble flag (R13) -/
  pend        : Bool
  /-- the pulse buffer (R18) -/
  buf         : Memory
  /-- end of stream taken (R19) -/
  halted      : Bool
  /-- the fault register (R20) -/
  fault       : FaultCause
  /-- waiting inside `Transmit` (R21(b); spec/60_exceptions.md R75, R88) -/
  busy        : Bool
  /-- an `RST` has been taken (spec/70_reset_and_hazards.md R90) -/
  constructed : Bool
  /-- the open parameters (spec/00_scope.md R6); no step writes them -/
  params      : Params
  /-- what the environment still has to offer, next first (R25, R26) -/
  input       : List Offer
  /-- the `TX` and `REPORT` events of the present run, oldest first: its output (R27,
  spec/70_reset_and_hazards.md R93) -/
  out         : List Output
  /-- the `TX` and `REPORT` events of the runs before it, oldest first (log 19, DESIGN CHOICE) -/
  earlier     : List Output
  /-- the model's own: how many times the Transmitter has answered (log 9, DESIGN CHOICE) -/
  draws       : Nat
  /-- the model's own: how many `RST` have been taken since `State.reset` (log 9, DESIGN CHOICE) -/
  resets      : Nat
  /-- the model's own: the value of `draws` at which the Transmitter never answers, if any (spec/60_exceptions.md R75; log 8, DESIGN CHOICE) -/
  txSilentAt  : Option Nat
deriving DecidableEq, Repr

/-- Why a step can stop with a fault of the MODEL (the spec's own `fault` is the register of that name). -/
inductive Fault where
  /-- Raised by `Memory.readRange` when it is asked for a word at an index of `len` or more, which does not exist
  (R18). No instruction asks for one. Safe: the model stops. -/
  | noSuchWord
deriving DecidableEq, Repr

/-- Why an event or an instruction has no step. -/
inductive Refusal where
  /-- Raised by the dispatch for an instruction that has no meaning yet; no arm uses it now. Safe. -/
  | notModelled (mnemonic : String)
  /-- Raised by every instruction and by `EOS` when no `RST` has ever been taken
  (spec/70_reset_and_hazards.md R90: it "accepts no stream event"). Safe. -/
  | neverReset
  /-- Raised by every instruction and by `EOS` while a `Transmit` is outstanding (spec/60_exceptions.md R75: it "takes
  no event"). `step` never gets there: it waits. Safe. -/
  | insideTransmit
  /-- Raised by every instruction and by `EOS` while `halted` = 1 (spec/42_ignored_and_stream_end.md R66: "a model
  must refuse such a step"). Safe. -/
  | afterEndOfStream
  /-- Raised by every instruction and by `EOS` while `fault` is not `none` (R66). Safe. -/
  | afterFault
  /-- Raised by `NIBH` with `pend` = 1 and by `NIBL` with `pend` = 0 (spec/40_hex_digits.md R55, R56 "require"). The
  decoder never gives such an instruction. Safe. -/
  | wrongMode
deriving DecidableEq, Repr

/-- What a step answers. -/
abbrev Result := Host.Outcome State Fault Refusal

/-- The machine right after an `RST` with the parameters `p` and the values `c` on `CFG` (R28). `cur` is unspecified
by the spec; 0 is the model's choice (log 5, DESIGN CHOICE). Nothing is offered, nothing has been sent, and the Transmitter answers
every request (spec/70_reset_and_hazards.md R91(4)). -/
def State.resetWith (p : Params) (c : Cfg) : State where
  cfg         := c
  cur         := 0
  pend        := false
  buf         := [c.headerMarkLen, c.headerSpaceLen]
  halted      := false
  fault       := .none
  busy        := false
  constructed := true
  params      := p
  input       := []
  out         := []
  earlier     := []
  draws       := 0
  resets      := 0
  txSilentAt  := none

/-- The machine right after reset: the defaults of spec/00_scope.md R6 for the parameters and the configuration
(log 2, DESIGN CHOICE, log 10, DESIGN CHOICE). -/
def State.reset : State := State.resetWith Config.paramsDefault Config.cfgDefault

end Sys2Proof.Machine
end

