-- ==== Sys2Proof/Machine/Ops.lean ====
section
/-!
DEFINITION. The named operations over the buffer, the registers and the ports that every meaning is built from, and the
one operation that raises a fault (spec/00_scope.md R7; spec/20_memory.md R33, R36; spec/60_exceptions.md R71).
-/

namespace Sys2Proof.Machine

/-! ### The pulse buffer as a memory -/

/-- `buf[i]`, which exists for `i < len` only (spec/10_state.md R18). -/
def Memory.read (m : Memory) (i : Nat) : Option Duration := m[i]?

/-- `MemRead(addr, n)` (R7): the `n` words from `addr` on, in index order; nothing when one of them does not exist. -/
def Memory.readRange (m : Memory) (addr n : Nat) : Option (List Duration) :=
  if addr + n ≤ m.length then some ((m.drop addr).take n) else none

/-- `MemWrite(addr, n, v)` with `n` the length of `v` (R7), for `addr` at most `len`: words are overwritten, and the
buffer grows when the write runs past its end. -/
def Memory.write (m : Memory) (addr : Nat) (v : List Duration) : Memory :=
  m.take addr ++ v ++ m.drop (addr + v.length)

/-- The buffer as (address, word) pairs, lowest address first. -/
def Memory.cells (m : Memory) : List (Nat × Duration) := (List.range m.length).zip m

/-- The canonical form: the addresses of the cells rise strictly. -/
def Memory.wf (m : Memory) : Bool := decide (((Memory.cells m).map Prod.fst).Pairwise (· < ·))

/-- The write pointer `len`: the number of words in the buffer (spec/10_state.md R10). -/
abbrev State.len (s : State) : Nat := s.buf.length

/-! ### Single-field writes -/

/-- `cur <- v`. -/
def State.setCur (v : Byte) (s : State) : State := { s with cur := v }

/-- Write the whole buffer. -/
def State.setBuf (m : Memory) (s : State) : State := { s with buf := m }

/-- `len <- 0`: the old words cease to exist (spec/20_memory.md R34). -/
def State.clearBuf (s : State) : State := s.setBuf []

/-- The environment's remaining offers. -/
def State.setInput (l : List Offer) (s : State) : State := { s with input := l }

/-- One event goes out on `TX` or `REPORT` (spec/10_state.md R25). -/
def State.emit (o : Output) (s : State) : State := { s with out := s.out ++ [o] }

/-- A new run begins: the events made so far are those of earlier runs, and the run's own output is empty
(spec/70_reset_and_hazards.md R93; log 19, DESIGN CHOICE). No event is made and none is lost. -/
def State.beginRun (s : State) : State := { s with earlier := s.earlier ++ s.out, out := [] }

/-- The Transmitter has answered once more (log 9, DESIGN CHOICE). -/
def State.nextDraw (s : State) : State := { s with draws := s.draws + 1 }

/-- The block waits inside `Transmit` (spec/10_state.md R21(b)). -/
def State.setBusy (s : State) : State := { s with busy := true }

/-- `raise <Fault>(info)` (spec/60_exceptions.md R71): the fault register is set, `info` is discarded, nothing else
changes, the step ends. -/
def State.raiseFault (f : FaultCause) (_info : Nat) (s : State) : State := { s with fault := f }

/-! ### Appending -/

/-- The write of `Append(v)` (R7): `MemWrite(len, 1, [v]); len <- len + 1`. Its capacity check is `withRoom`, made
once for the whole instruction (spec/20_memory.md R33). -/
def State.append (v : Duration) (s : State) : State := s.setBuf (Memory.write s.buf s.len [v])

/-- `AppendPair(m, s)` (R7): the mark, then the space. -/
def State.appendPair (p : Duration × Duration) (s : State) : State := (s.append p.1).append p.2

/-- `len + k <= BUF_DEPTH` (R33); always true when `BUF_DEPTH` is unbounded. -/
def State.roomFor (k : Nat) (s : State) : Bool :=
  match s.params.bufDepth with
  | none => true
  | some depth => decide (s.len + k ≤ depth)

/-- The one capacity check of an instruction that appends `k` words, made before its first append (R33): without
room it raises `BufOverflow(len)` and appends nothing. -/
def withRoom (k : Nat) (s : State) (go : Result) : Result :=
  if s.roomFor k then go else .next (s.raiseFault .bufOverflow s.len)

end Sys2Proof.Machine
end

