-- ==== Sys2Proof/Machine/Operands.lean ====
section
/-!
DEFINITION. What an instruction operates on: the nibble of the character, the bits of the byte in wire order, and the
timing look-up table (spec/10_state.md R15; spec/40_hex_digits.md R54 to R58).
-/

namespace Sys2Proof.Machine

/-- A symbol of the timing table (R15). -/
inductive Sym where
  | hdr
  | zero
  | one
  | tail
deriving DecidableEq, Repr

/-- `LUT(sym)`: the pair (mark, space) of the row (R15). -/
def lut (c : Cfg) (sym : Sym) : Duration × Duration :=
  match sym with
  | .hdr => (c.headerMarkLen, c.headerSpaceLen)
  | .zero => (c.bitMarkLen, c.bitZeroSpaceLen)
  | .one => (c.bitMarkLen, c.bitOneSpaceLen)
  | .tail => (c.tailMarkLen, c.tailSpaceLen)

/-- `zext_8(n) << 4` (R55). -/
def highNibble (n : Nibble) : Byte := n.setWidth 8 <<< 4

/-- `cur | zext_8(n)` (R56). -/
def withLowNibble (cur : Byte) (n : Nibble) : Byte := cur ||| n.setWidth 8

/-- The tested bit index at loop position `pos` (R54). -/
def bitIndex (swap : Bool) (pos : Nat) : Nat := if swap then 7 - pos else pos

/-- The loop positions, 7 down to 0 in encounter order (R54). -/
def positions : List Nat := [7, 6, 5, 4, 3, 2, 1, 0]

/-- `ExpandByte(b, swap)` (R54): eight symbols in wire order. -/
def expandByte (b : Byte) (swap : Bool) : List Sym :=
  positions.map fun pos => if b.getLsbD (bitIndex swap pos) then .one else .zero

/-- `AppendPair(LUT(sym))`. -/
def State.appendSym (sym : Sym) (s : State) : State := s.appendPair (lut s.cfg sym)

/-- `for sym in l: AppendPair(LUT(sym))` (R56). -/
def State.appendSyms (l : List Sym) (s : State) : State := l.foldl (fun t sym => t.appendSym sym) s

end Sys2Proof.Machine
end

