-- ==== Sys2Proof/Machine/Flags.lean ====
section
/-!
DEFINITION. The flags: `pend` (spec/10_state.md R13), `halted` (R19), and the pair that decides whether an event is
accepted at all (spec/42_ignored_and_stream_end.md R66).
-/

namespace Sys2Proof.Machine

/-- Write the pending-high-nibble flag. -/
def State.setPend (b : Bool) (s : State) : State := { s with pend := b }

/-- The last line of `EOT` (spec/41_delimiters.md R60, R61): `pend <- 0` under the parameter `EOT_CLEARS_PEND`. -/
def State.eotPend (s : State) : State := if s.params.eotClearsPend then s.setPend false else s

/-- `halted <- 1` (spec/42_ignored_and_stream_end.md R65). -/
def State.halt (s : State) : State := { s with halted := true }

/-- The block can take a stream event: it has been reset (spec/70_reset_and_hazards.md R90), no `Transmit` is
outstanding (spec/60_exceptions.md R75), `halted` = 0 and `fault` = none (spec/42_ignored_and_stream_end.md R66). -/
def State.accepting (s : State) : Bool :=
  s.constructed && !s.busy && !s.halted && s.fault == .none

/-- The reason an event is refused, when the block is not accepting. -/
def State.whyRefused (s : State) : Refusal :=
  if !s.constructed then .neverReset
  else if s.busy then .insideTransmit
  else if s.halted then .afterEndOfStream
  else .afterFault

/-- `require halted = 0 and fault = none`, as every character instruction and `EOS` has it (R66, R68). -/
def guarded (s : State) (go : Result) : Result :=
  if s.accepting then go else .refused s.whyRefused

/-- `require pend = b` of `NIBH` and `NIBL` (spec/40_hex_digits.md R55, R56; log 21, DEDUCED). -/
def requirePend (b : Bool) (s : State) (go : Result) : Result :=
  if s.pend = b then go else .refused .wrongMode

end Sys2Proof.Machine
end

