-- ==== Sys2Proof/Machine/Transmitter.lean ====
section
/-!
DEFINITION. The external Transmitter as the encoder sees it (spec/60_exceptions.md R72 to R78): the request, the
drawn status, the report, and the textual variant's view of a batch.
-/

namespace Sys2Proof.Machine

/-- `CARRIER_HZ` (R77). -/
def carrierHz : Nat := 38000

/-- `DUTY` (R77). -/
def dutyCycle : Fraction := ⟨1, 2⟩

/-- What the Transmitter answers (R73). -/
inductive TxStatus where
  | success
  | failure
deriving DecidableEq, Repr

/-- "zero is success, non-zero is failure" (R69). -/
def TxStatus.ofWord (w : Nat) : TxStatus := if w = 0 then .success else .failure

/-- The status drawn at this state (R74): a free value, applied to the Transmitter's own counter, which `RST` does not
touch (spec/70_reset_and_hazards.md R92). -/
def State.txStatus (s : State) : TxStatus := TxStatus.ofWord (Config.txStatusWord s.draws)

/-- The Transmitter answers the request made at this value of `draws` (R75: it may never answer; log 8, DESIGN CHOICE). -/
def State.txAnswers (s : State) : Bool := s.txSilentAt != some s.draws

/-- The request of `Transmit(train, CARRIER_HZ, DUTY)` goes out on `TX` (R73, R77). -/
def State.request (train : List Duration) (s : State) : State :=
  s.emit (.tx { train := train, hz := carrierHz, duty := dutyCycle })

/-- The reports of a status: one `TxFailure` when it is not success (R72: "Exactly one report is made per failed
`Transmit`"). -/
def statusReports (st : TxStatus) : List Output :=
  match st with
  | .success => []
  | .failure => [.report .txFailure]

/-- `if status != success : Report(TxFailure)`. -/
def State.reportStatus (st : TxStatus) (s : State) : State := { s with out := s.out ++ statusReports st }

/-- What `EOT` does once the Transmitter has answered `st` (spec/41_delimiters.md R60): the report if it failed, then
`len <- 0` whatever the status, then R61's parameter. -/
def State.afterTransmit (st : TxStatus) (s : State) : State :=
  ((s.nextDraw.reportStatus st).clearBuf).eotPend

/-- `status <- Transmit(train, CARRIER_HZ, DUTY)` and the rest of `EOT` (R60). A Transmitter that never answers
leaves the block waiting inside the call, with nothing after the request done (R75; U9: "stuck"). -/
def State.transmit (train : List Duration) (s : State) : State :=
  if s.txAnswers then (s.request train).afterTransmit s.txStatus else (s.request train).setBusy

/-- The label of a line of the textual dump (R76). -/
inductive DumpLabel where
  | pulse
  | space
deriving DecidableEq, Repr

/-- The lines of the textual variant for one batch (R76): one line per duration, alternating labels, `pulse` first. It
is a view of a `TxRequest`; no step uses it (log 25, DEDUCED). -/
def dumpLines (train : List Duration) : List (DumpLabel × Duration) :=
  match train with
  | [] => []
  | [m] => [(.pulse, m)]
  | m :: sp :: rest => (.pulse, m) :: (.space, sp) :: dumpLines rest

end Sys2Proof.Machine
end

