-- ==== Sys2Proof/Machine/Delimiters.lean ====
section
/-!
DEFINITION. The delimiter instructions `SEP` and `EOT` (spec/41_delimiters.md R59 to R62).
-/

namespace Sys2Proof.Machine

/-- `SEP` (R59): the tail pair, then the header pair, and no transmit. -/
def execSep (s : State) : Result :=
  guarded s (withRoom 4 s (.next (s.appendSyms [.tail, .hdr])))

/-- `train <- MemRead(0, len)` and the `Transmit` of it (R60; spec/20_memory.md R36). -/
def dispatchBatch (s : State) : Result :=
  match Memory.readRange s.buf 0 s.len with
  | none => .fault .noSuchWord
  | some train => .next (s.transmit train)

/-- `EOT` (R60): the tail pair, the dispatch of the whole buffer, the report of a failure, `len <- 0`; no header is
put back (R62). -/
def execEot (s : State) : Result :=
  guarded s (withRoom 2 s (dispatchBatch (s.appendSym .tail)))

end Sys2Proof.Machine
end

