-- ==== Sys2Proof/Machine/HexDigits.lean ====
section
/-!
DEFINITION. The hex-digit instructions `NIBH` and `NIBL` (spec/40_hex_digits.md R55, R56).
-/

namespace Sys2Proof.Machine

/-- `NIBH n` (R55): the nibble is parked in the high half of `cur`. -/
def execNibh (n : Nibble) (s : State) : Result :=
  guarded s (requirePend false s (.next ((s.setCur (highNibble n)).setPend true)))

/-- `NIBL` once there is room (R56): `cur` is completed, its eight bit pairs are appended, `pend` is cleared. -/
def State.completeByte (n : Nibble) (s : State) : State :=
  let t := s.setCur (withLowNibble s.cur n)
  (t.appendSyms (expandByte t.cur t.cfg.bitOrderSwap)).setPend false

/-- `NIBL n` (R56): 16 words, after the capacity check. -/
def execNibl (n : Nibble) (s : State) : Result :=
  guarded s (requirePend true s (withRoom 16 s (.next (s.completeByte n))))

end Sys2Proof.Machine
end

