-- ==== Sys2Proof/Machine/Ignored.lean ====
section
/-!
DEFINITION. The ignored characters and the end of the stream (spec/42_ignored_and_stream_end.md R64, R65).
-/

namespace Sys2Proof.Machine

/-- `IGN` (R64): no state change. -/
def execIgn (s : State) : Result := guarded s (.next s)

/-- `EOS` (R65): `halted <- 1`; nothing is appended, transmitted or reported. -/
def takeEos (s : State) : Result := guarded s (.next s.halt)

end Sys2Proof.Machine
end

