-- ==== Sys2Proof/Syntax.lean ====
section
/-!
DEFINITION. The instructions: one constructor per mnemonic of spec/opcode_table.json (spec/00_scope.md R2).
`EOS` and `RST` are stream events without an encoding and without a table row (spec/30_encoding.md R50); they are
events of the step (Machine/Ignored.lean, Machine/Reset.lean), not instructions.
-/

namespace Sys2Proof

/-- The zone `c[7:4]` of a hex-digit character (spec/30_encoding.md R43). -/
inductive Zone where
  /-- 0x3, the digits `0` to `9`. -/
  | decimal
  /-- 0x4, the letters `A` to `F`. -/
  | upper
  /-- 0x6, the letters `a` to `f`. -/
  | lower
deriving DecidableEq, Repr

/-- One instruction is one input character (R2, R43). The zone of a hex digit and the code of an ignored character
have no effect; they are kept so that an instruction determines its character (log 18, DESIGN CHOICE). -/
inductive Instr where
  /-- `NIBH n`: hex digit while no high nibble is pending (22 rows of the table). -/
  | nibh (n : Nibble) (z : Zone)
  /-- `NIBL n`: hex digit while a high nibble is pending (22 rows of the table). -/
  | nibl (n : Nibble) (z : Zone)
  /-- `SEP`: the comma. -/
  | sep
  /-- `EOT`: the newline. -/
  | eot
  /-- `IGN`: any other character, of code `c`. -/
  | ign (c : Byte)
deriving DecidableEq, Repr

end Sys2Proof
end

