-- ==== Sys2Proof/Machine/Dispatch.lean ====
section
/-!
DEFINITION. One arm per constructor of Instr, each a direct call of that instruction's meaning.
-/

namespace Sys2Proof.Machine

def exec (i : Instr) (s : State) : Host.Outcome State Fault Refusal :=
  match i with
  | .nibh n _ => Sys2Proof.Machine.execNibh n s
  | .nibl n _ => Sys2Proof.Machine.execNibl n s
  | .sep => Sys2Proof.Machine.execSep s
  | .eot => Sys2Proof.Machine.execEot s
  | .ign _ => Sys2Proof.Machine.execIgn s

end Sys2Proof.Machine
end

