-- ==== Sys2Proof/Machine/Reset.lean ====
section
/-!
DEFINITION. The event `RST` (spec/70_reset_and_hazards.md R89).
-/

namespace Sys2Proof.Machine

/-- The registers as `RST` leaves them before its two appends: `cfg` sampled, the flags clear, the buffer empty, `cur` a
free value (R89; log 6, DESIGN CHOICE). The Transmitter's own `draws` and `txSilentAt` are left alone (R92). -/
def State.resetRegisters (c : Cfg) (s : State) : State :=
  { s with
    cfg := c
    pend := false
    cur := Config.curAfterReset s.resets
    buf := []
    halted := false
    fault := .none
    busy := false
    constructed := true
    resets := s.resets + 1 }

/-- `RST` with the values `c` on `CFG` (R89). It writes every register, is accepted in any state, begins a new run
(R93), makes no `Transmit` and no `Report`, and does not touch the Transmitter (R92). Its two appends cannot overflow, `BUF_DEPTH` being at least 4 (log 23, DEDUCED). -/
def takeRst (c : Cfg) (s : State) : State := (s.beginRun.resetRegisters c).appendSym .hdr

end Sys2Proof.Machine
end

