-- ==== Sys2Proof/WellFormed.lean ====
section
/-!
DEFINITION. Which instructions a character can stand for (spec/30_encoding.md R44, R45; the IGN row of
spec/opcode_table.json).
-/

namespace Sys2Proof

/-- The zone a glyph of value `n` may have: a decimal digit is below 10, a letter digit from 10 on (R45). -/
def Zone.admits (z : Zone) (n : Nibble) : Bool :=
  match z with
  | .decimal => decide (n.toNat < 10)
  | .upper => decide (10 ≤ n.toNat)
  | .lower => decide (10 ≤ n.toNat)

/-- The closed ranges of the 232 `OTHER` codes, as R44's table and the IGN row's `ranges` list them. -/
def otherRanges : List (Nat × Nat) :=
  [(0x00, 0x09), (0x0B, 0x2B), (0x2D, 0x2F), (0x3A, 0x40), (0x47, 0x60), (0x67, 0xFF)]

/-- `c` is one of the 232 codes of class `OTHER` (R44). -/
def isOther (c : Byte) : Bool :=
  otherRanges.any fun r => decide (r.1 ≤ c.toNat) && decide (c.toNat ≤ r.2)

/-- The instruction is one that some character encodes. -/
def Instr.wellFormed (i : Instr) : Bool :=
  match i with
  | .nibh n z => z.admits n
  | .nibl n z => z.admits n
  | .sep => true
  | .eot => true
  | .ign c => isOther c

/-- The instruction belongs to the mode `pend` (R49; the table's `mode` object): `NIBH` to 0, `NIBL` to 1, the
others to both. -/
def Instr.inMode (i : Instr) (pend : Bool) : Bool :=
  match i with
  | .nibh _ _ => !pend
  | .nibl _ _ => pend
  | .sep => true
  | .eot => true
  | .ign _ => true

end Sys2Proof
end

