-- ==== Sys2Proof/Decode.lean ====
section
/-!
DEFINITION. The decoder of spec/30_encoding.md (R43 to R50), the encoder written from the same tables, and the host's
view of the decoder. The character codes are ASCII (decision D1, G1; log 16, PRESUMED).
-/

namespace Sys2Proof

/-- The class `Decode(c)` of a character (R44), with the zone beside the nibble value. -/
inductive CharClass where
  | hex (n : Nibble) (z : Zone)
  | comma
  | newline
  | other
deriving DecidableEq, Repr

/-- The digit field `c[3:0]` (R43). -/
def digitField (c : Byte) : Nibble := c.extractLsb' 0 4

/-- `lo <= c <= hi`, on character codes. -/
def codeIn (lo hi : Nat) (c : Byte) : Bool := decide (lo ≤ c.toNat) && decide (c.toNat ≤ hi)

/-- `Decode(c)` (R44, R45, R46): total, every one of the 256 codes has exactly one class. A letter's value is
`c[3:0] + 9`, in either case. -/
def classify (c : Byte) : CharClass :=
  if codeIn 0x30 0x39 c then .hex (digitField c) .decimal
  else if codeIn 0x41 0x46 c then .hex (digitField c + 9) .upper
  else if codeIn 0x61 0x66 c then .hex (digitField c + 9) .lower
  else if c = 0x2C then .comma
  else if c = 0x0A then .newline
  else .other

/-- The instruction a character is, in the mode `pend` (R44's last column, R49). -/
def decodeChar (pend : Bool) (c : Byte) : Instr :=
  match classify c with
  | .hex n z => if pend then .nibl n z else .nibh n z
  | .comma => .sep
  | .newline => .eot
  | .other => .ign c

/-- Why a list of characters holds no instruction. No CODE is ever rejected (R48). -/
inductive DecodeReject where
  /-- The list is empty: there is no character to decode. -/
  | noCharacter
deriving DecidableEq, Repr

/-- What the decoder answers: an instruction and the characters after it, or a rejection by name. -/
inductive Decoded where
  | instr (i : Instr) (rest : List Byte)
  | reject (why : DecodeReject)
deriving DecidableEq, Repr

/-- The decoder over a list of characters, in the mode `pend`: one instruction is one character (R43, R49). -/
def decode (pend : Bool) (cs : List Byte) : Decoded :=
  match cs with
  | [] => .reject .noCharacter
  | c :: rest => .instr (decodeChar pend c) rest

/-- The zone bits `c[7:4]` (R43). -/
def Zone.bits (z : Zone) : Nibble :=
  match z with
  | .decimal => 0x3
  | .upper => 0x4
  | .lower => 0x6

/-- The digit field that stands for the value `n` in the zone `z`: R45's arithmetic read backwards. -/
def Zone.digit (z : Zone) (n : Nibble) : Nibble :=
  match z with
  | .decimal => n
  | .upper => n - 9
  | .lower => n - 9

/-- The character of the hex digit `n` written in zone `z` (R45's table). -/
def hexChar (n : Nibble) (z : Zone) : Byte := z.bits ++ z.digit n

/-- The one character of an instruction (R43 to R47). -/
def encodeChar (i : Instr) : Byte :=
  match i with
  | .nibh n z => hexChar n z
  | .nibl n z => hexChar n z
  | .sep => 0x2C
  | .eot => 0x0A
  | .ign c => c

/-- The words of an instruction: one character. -/
def encode (i : Instr) : List Byte := [encodeChar i]

/-- The first character of an instruction whose bits are `w`, numbered as spec/opcode_table.json numbers them. The
instruction is bits 7..0; a bit above `nbits` is 0. -/
def tableChar (nbits w : Nat) : Byte := BitVec.ofNat 8 (w % 2 ^ nbits)

/-- The host's question: the instruction the decoder reads from a table word. A word carries no mode, so it is read
in the mode that reset leaves, `pend` = 0 (spec/10_state.md R13, R28): a hex-digit word is its `NIBH`. Log 17, DESIGN CHOICE. -/
def decodeTableWord (nbits w : Nat) : Option Instr :=
  match decode false [tableChar nbits w] with
  | .instr i _ => some i
  | .reject _ => none

end Sys2Proof
end

