-- ==== Sys2Proof/Machine/Source.lean ====
section
/-!
DEFINITION. The Source and the taking of the next event (spec/10_state.md R25, R26; spec/30_encoding.md R52;
spec/60_exceptions.md R75, R80).
-/

namespace Sys2Proof.Machine

/-- The next thing the block does, with the state after the event has been taken from the offers. -/
inductive Taken where
  /-- a `Transmit` is outstanding: no event is taken (R75) -/
  | outstanding
  /-- nothing is offered: the block waits, "blocking on input read" (spec/60_exceptions.md R88) -/
  | idle
  | rst (c : Cfg) (s : State)
  | eos (s : State)
  | char (c : Byte) (s : State)
deriving DecidableEq, Repr

/-- Take the next event. `RST` goes before a stream event offered with it, which stays on offer (R80). -/
def takeEvent (s : State) : Taken :=
  if s.busy then .outstanding
  else
    match s.input with
    | [] => .idle
    | .reset c :: rest => .rst c (s.setInput rest)
    | .resetAndStream c e :: rest => .rst c (s.setInput (.stream e :: rest))
    | .stream .eos :: rest => .eos (s.setInput rest)
    | .stream (.char c) :: rest => .char c (s.setInput rest)

/-- The instruction the character `c` is at the state `s`: the mode bit is `pend` (spec/30_encoding.md R49). -/
def instrAt (s : State) (c : Byte) : Instr := decodeChar s.pend c

/-- The Source offers `e` next, before everything it offered already. -/
def State.offerFirst (e : StreamEvent) (s : State) : State := s.setInput (.stream e :: s.input)

/-- Characters as offers, in stream order. -/
def charOffers (text : List Byte) : List Offer := text.map fun c => .stream (.char c)

/-- The standard-input form: every character read, then `EOS` (R26). -/
def stdinOffers (text : List Byte) : List Offer := charOffers text ++ [.stream .eos]

/-- The explicit-argument form: the characters of the argument, one newline, `EOS` (R26, R52(b)). -/
def argumentOffers (text : List Byte) : List Offer := stdinOffers (text ++ [0x0A])

/-- The character as it is classified: the letters `a` to `f` in upper case, which describes
the folding fully (spec/30_encoding.md R46). -/
def foldCase (c : Byte) : Byte := if codeIn 0x61 0x66 c then c - 0x20 else c

/-- A text without its ignored characters and in upper case (R46, R51): what is left is what has an effect. -/
def plainText (text : List Byte) : List Byte := (text.filter fun c => !isOther c).map foldCase

/-- The two digits of a byte, high nibble first (spec/30_encoding.md R51), in upper case (log 27, DEDUCED). -/
def hexText (b : Byte) : List Byte :=
  let digit := fun (n : Nibble) => hexChar n (if n.toNat < 10 then .decimal else .upper)
  [digit (b.extractLsb' 4 4), digit (b.extractLsb' 0 4)]

/-- One line of R51's grammar: the frames separated by commas, then the newline, with no ignored
characters (log 27, DEDUCED). -/
def lineText (frames : List (List Byte)) : List Byte :=
  match frames with
  | [] => [0x0A]
  | [f] => f.flatMap hexText ++ [0x0A]
  | f :: g :: rest => f.flatMap hexText ++ 0x2C :: lineText (g :: rest)

end Sys2Proof.Machine
end

