-- ==== Sys2Proof/Machine/Step.lean ====
section
/-!
DEFINITION. One step: one input event run to completion (spec/00_scope.md R8), and the host's placing of a character.
-/

namespace Sys2Proof.Machine

/-- One step. With a `Transmit` outstanding, or with nothing offered, the block waits and keeps all its state
(spec/60_exceptions.md R75, R88). -/
def step (s : State) : Host.Outcome State Fault Refusal :=
  match takeEvent s with
  | .outstanding => .next s
  | .idle => .next s
  | .rst c t => .next (takeRst c t)
  | .eos t => takeEos t
  | .char c t => exec (instrAt t c) t

/-- `s` with the character of the table word `w` as the Source's next event, so that the very next step takes it. The
machine has no memory of instructions and no program counter (spec/10_state.md R12): a program is the stream the
Source offers. Log 17, DESIGN CHOICE. -/
def State.withFetchWord (s : State) (nbits w : Nat) : State := s.offerFirst (.char (tableChar nbits w))

end Sys2Proof.Machine
end

