-- ==== Sys2Proof/Safety.lean ====
section
/-!
DEFINITION. What claims speak of: the observation of a run, how a run ends, the invariants of spec/10_state.md R23, the
layout of a frame, and the relations of the two-run claims.
-/

namespace Sys2Proof.Machine

/-! ### Runs -/

/-- `k` steps, stopping at the first that does not go on (spec/70_reset_and_hazards.md R93). -/
def run (k : Nat) (s : State) : Result :=
  match k with
  | 0 => .next s
  | k + 1 =>
    match step s with
    | .next t => run k t
    | .fault r => .fault r
    | .refused r => .refused r

/-! ### Observation (spec/10_state.md R27) and the end of a run (spec/42_ignored_and_stream_end.md R66) -/

/-- What an outside observer sees of the present run: its `TX` and `REPORT` events, `halted` and `fault` (R27). A new run
begins at each `RST` with no event (spec/70_reset_and_hazards.md R93). -/
def State.observe (s : State) : List Output × Bool × FaultCause := (s.out, s.halted, s.fault)

/-- Every `TX` and `REPORT` event the block has ever made, over all its runs, oldest first (log 19, DESIGN CHOICE). -/
def State.sent (s : State) : List Output := s.earlier ++ s.out

/-- The offer brings the newline, alone or after an `RST`. -/
def Offer.bringsNewline (o : Offer) : Prop := o = .stream (.char 0x0A) ∨ ∃ c, o = .resetAndStream c (.char 0x0A)

/-- The `TX` requests among the output events, in order. -/
def requests (l : List Output) : List TxRequest :=
  l.filterMap fun o => match o with
    | .tx r => some r
    | .report _ => none

/-- The normal end of a run: `halted` = 1, no fault, no `Transmit` outstanding (R66, spec/60_exceptions.md R71). -/
def State.endedNormally (s : State) : Bool := s.halted && s.fault == .none && !s.busy

/-- The abnormal end of a run (R66). -/
def State.endedAbnormally (s : State) : Bool := s.fault != .none && !s.busy

/-- The next thing the block does is to take an `RST`. -/
def State.takesReset (s : State) : Prop := ∃ c t, takeEvent s = .rst c t

/-- The next thing the block does is to take the character `c`. -/
def State.takesChar (s : State) (c : Byte) : Prop := ∃ t, takeEvent s = .char c t

/-! ### The layout of a batch -/

/-- The 16 words of the byte `b` in wire order, by the law of spec/40_hex_digits.md R57: pair `k` encodes bit
`b[7-k]` without swap and `b[k]` with swap. -/
def wireWords (c : Cfg) (b : Byte) : List Duration :=
  (List.range 8).flatMap fun k =>
    [c.bitMarkLen,
      if b.getLsbD (if c.bitOrderSwap then k else 7 - k) then c.bitOneSpaceLen else c.bitZeroSpaceLen]

/-- The header pair. -/
def headerWords (c : Cfg) : List Duration := [c.headerMarkLen, c.headerSpaceLen]

/-- The tail pair. -/
def tailWords (c : Cfg) : List Duration := [c.tailMarkLen, c.tailSpaceLen]

/-- A whole frame (spec/20_memory.md R35): header pair, byte groups, tail pair. -/
def frameWords (c : Cfg) (bytes : List Byte) : List Duration :=
  headerWords c ++ bytes.flatMap (wireWords c) ++ tailWords c

/-- The condition `OPEN` of spec/41_delimiters.md R63: the buffer ends in a header pair and byte groups. -/
def IsOpen (c : Cfg) (m : Memory) : Prop :=
  ∃ (before : Memory) (bytes : List Byte), m = before ++ headerWords c ++ bytes.flatMap (wireWords c)

/-- The condition `BARE` of R63: nothing but byte groups. -/
def IsBare (c : Cfg) (m : Memory) : Prop := ∃ bytes : List Byte, m = bytes.flatMap (wireWords c)

/-! ### Invariants -/

/-- A legal `BUF_DEPTH`: if finite, even and at least 4 (spec/00_scope.md R6). -/
def legalParams (p : Params) : Prop := ∀ d, p.bufDepth = some d → d % 2 = 0 ∧ 4 ≤ d

/-- The word at index `i` comes from the configuration column that index belongs to (spec/10_state.md R23(c)). -/
def columnOf (c : Cfg) (i : Nat) : List Duration :=
  if i % 2 = 0 then [c.headerMarkLen, c.bitMarkLen, c.tailMarkLen]
  else [c.headerSpaceLen, c.bitZeroSpaceLen, c.bitOneSpaceLen, c.tailSpaceLen]

/-- The invariants of spec/10_state.md R23, between steps. -/
structure EncoderInv (s : State) : Prop where
  /-- R6: the parameters are legal -/
  legal       : legalParams s.params
  /-- R23(a) -/
  lenEven     : s.len % 2 = 0
  /-- R23(b) -/
  lowNibble   : s.pend = true → s.cur.extractLsb' 0 4 = 0
  /-- R23(c) -/
  words       : ∀ i d, Memory.read s.buf i = some d → d ∈ columnOf s.cfg i
  /-- R23(d) -/
  withinDepth : ∀ d, s.params.bufDepth = some d → s.len ≤ d

/-- What every request ever sent looks like (spec/41_delimiters.md R60(d), spec/60_exceptions.md R77). -/
def BatchShape (s : State) : Prop :=
  ∀ r ∈ requests s.sent, r.train.length % 2 = 0 ∧ 2 ≤ r.train.length ∧ r.hz = 38000 ∧ r.duty = ⟨1, 2⟩

/-- A value that a duration word of the width `DW` can hold (spec/70_reset_and_hazards.md R99). -/
def fitsWidth (p : Params) (d : Duration) : Prop := ∀ w, p.durationWidth = some w → d < 2 ^ w

/-- Every duration of a configuration fits. -/
def cfgFits (p : Params) (c : Cfg) : Prop :=
  ∀ d ∈ [c.headerMarkLen, c.headerSpaceLen, c.bitMarkLen, c.bitZeroSpaceLen, c.bitOneSpaceLen, c.tailMarkLen,
    c.tailSpaceLen], fitsWidth p d

/-- Every duration in the machine and on its ports fits the width `DW`. -/
structure WidthInv (s : State) : Prop where
  cfg     : cfgFits s.params s.cfg
  buf     : ∀ d ∈ s.buf, fitsWidth s.params d
  sent    : ∀ r ∈ requests s.sent, ∀ d ∈ r.train, fitsWidth s.params d
  resets  : ∀ c, .reset c ∈ s.input → cfgFits s.params c
  resets2 : ∀ c e, .resetAndStream c e ∈ s.input → cfgFits s.params c

/-! ### Two-run relations -/

/-- Two answers of a step agree: both stop for the same reason, or both go on in related states. -/
def Agree (R : State → State → Prop) (a b : Result) : Prop :=
  match a, b with
  | .next s, .next t => R s t
  | .fault r, .fault q => r = q
  | .refused r, .refused q => r = q
  | _, _ => False

/-- Two states that differ at most in a `cur` that no rule reads (spec/10_state.md R11). -/
def SameButDeadCur (s t : State) : Prop :=
  t = { s with cur := t.cur } ∧ (s.pend = true → t.cur = s.cur)

/-- Two states that differ at most in the statuses still to be drawn, in the reports made, and in a `cur` that no
rule reads (spec/60_exceptions.md R86). Both Transmitters answer every request. -/
def SameButStatus (s t : State) : Prop :=
  t = { s with cur := t.cur, out := t.out, earlier := t.earlier, draws := t.draws } ∧
    (s.pend = true → t.cur = s.cur) ∧ requests t.out = requests s.out ∧
    requests t.earlier = requests s.earlier ∧ s.txSilentAt = none

end Sys2Proof.Machine
end

