-- ==== Sys2Proof/Certificates/Slice0/Obligations.lean ====
section
/-!
DEFINITION. The statements for the provers. Each docstring names the rules of spec/ it formalises; a clause that is the
model's own choice names its log entry.
-/

open Sys2Proof Sys2Proof.Machine

/-! ### Encoding -/

/-- A few characters, written out from the tables of R44, R45 and R47, decode to the instructions they stand for. -/
def Obligations.CharactersOfTheTableDecode : Prop :=
  decodeChar false 0b00110100 = .nibh 4 .decimal ∧ decodeChar true 0b00110100 = .nibl 4 .decimal ∧
  decodeChar false 0b01000110 = .nibh 15 .upper ∧ decodeChar true 0b01100001 = .nibl 10 .lower ∧
  decodeChar false 0b00101100 = .sep ∧ decodeChar true 0b00101100 = .sep ∧
  decodeChar false 0b00001010 = .eot ∧ decodeChar true 0b00001010 = .eot ∧
  decodeChar false 0b00001101 = .ign 0x0D ∧ decodeChar true 0b01000111 = .ign 0x47

/-- R44: the table of classes, its counts, and the instruction of each class. No code is rejected. -/
def Obligations.ClassesPartitionTheCodes : Prop :=
  (∀ c : Byte,
    ((∃ n z, classify c = .hex n z) ↔
      (0x30 ≤ c.toNat ∧ c.toNat ≤ 0x39) ∨ (0x41 ≤ c.toNat ∧ c.toNat ≤ 0x46) ∨ (0x61 ≤ c.toNat ∧ c.toNat ≤ 0x66)) ∧
    (classify c = .comma ↔ c = 0x2C) ∧ (classify c = .newline ↔ c = 0x0A) ∧
    (classify c = .other ↔
      c.toNat ≤ 0x09 ∨ (0x0B ≤ c.toNat ∧ c.toNat ≤ 0x2B) ∨ (0x2D ≤ c.toNat ∧ c.toNat ≤ 0x2F) ∨
        (0x3A ≤ c.toNat ∧ c.toNat ≤ 0x40) ∨ (0x47 ≤ c.toNat ∧ c.toNat ≤ 0x60) ∨ 0x67 ≤ c.toNat)) ∧
  (∀ (c : Byte) (pend : Bool),
    (∀ n z, classify c = .hex n z → decodeChar pend c = if pend then .nibl n z else .nibh n z) ∧
    (classify c = .comma → decodeChar pend c = .sep) ∧ (classify c = .newline → decodeChar pend c = .eot) ∧
    (classify c = .other → decodeChar pend c = .ign c)) ∧
  (let codes := (List.range 256).map (BitVec.ofNat 8)
   (codes.filter fun c => match classify c with | .hex _ _ => true | _ => false).length = 22 ∧
   (codes.filter fun c => classify c = .comma).length = 1 ∧
   (codes.filter fun c => classify c = .newline).length = 1 ∧
   (codes.filter fun c => classify c = .other).length = 232)

/-- R45, R46: the nibble value of every hex-digit character, and that a lower-case letter has the value of its capital. -/
def Obligations.NibbleValueOfEveryDigit : Prop :=
  (∀ (c : Byte) (n : Nibble) (z : Zone), classify c = .hex n z →
    n.toNat =
      if c.toNat ≤ 0x39 then c.toNat - 0x30 else if c.toNat ≤ 0x46 then c.toNat - 0x41 + 10 else c.toNat - 0x61 + 10) ∧
  (∀ c : Byte, 0x41 ≤ c.toNat → c.toNat ≤ 0x46 →
    ∃ n, classify c = .hex n .upper ∧ classify (c + 0x20) = .hex n .lower)

/-- R49: `pend` selects between `NIBH` and `NIBL` for a hex digit, and no other class depends on it; every instruction
is one character long. -/
def Obligations.PendSelectsTheHexInstruction : Prop :=
  (∀ (c : Byte) (n : Nibble) (z : Zone), classify c = .hex n z →
    decodeChar false c = .nibh n z ∧ decodeChar true c = .nibl n z) ∧
  (∀ c : Byte, (∀ n z, classify c ≠ .hex n z) → decodeChar false c = decodeChar true c) ∧
  (∀ (pend : Bool) (c : Byte) (rest : List Byte), decode pend (c :: rest) = .instr (decodeChar pend c) rest)

/-- Decoding an encoded well-formed instruction in its mode gives it back, with the characters after it (R43 to R49). -/
def Obligations.DecodeOfEncodeIsTheInstruction : Prop :=
  ∀ (i : Instr) (pend : Bool) (rest : List Byte), i.wellFormed = true → i.inMode pend = true →
    decode pend (encode i ++ rest) = .instr i rest

/-- Every character in either mode decodes to a well-formed instruction of that mode, and encoding that gives the
character back. That the case of a letter survives is the model's choice (log 18, DESIGN CHOICE). -/
def Obligations.EncodeOfDecodeIsTheCharacter : Prop :=
  ∀ (pend : Bool) (c : Byte) (rest : List Byte), ∃ i, decode pend (c :: rest) = .instr i rest ∧
    encode i = [c] ∧ i.wellFormed = true ∧ i.inMode pend = true

/-! ### The step -/

/-- R8, R26: the next character offered, in the mode `pend`, is run by `exec`; what the step adds is that the character
leaves the offers. -/
def Obligations.StepRunsTheDecodedCharacter : Prop :=
  ∀ (s : State) (c : Byte) (rest : List Offer), s.busy = false → s.input = .stream (.char c) :: rest →
    step s = exec (decodeChar s.pend c) { s with input := rest }

/-- R80, R90: `RST` alone is taken; offered with a stream event it goes first, and the stream event stays on offer. -/
def Obligations.ResetGoesBeforeAStreamEvent : Prop :=
  ∀ (s : State) (c : Cfg) (e : StreamEvent) (rest : List Offer), s.busy = false →
    (s.input = .reset c :: rest → step s = .next (takeRst c { s with input := rest })) ∧
    (s.input = .resetAndStream c e :: rest → step s = .next (takeRst c { s with input := .stream e :: rest }))

/-- R75, R88: with a `Transmit` outstanding, or with nothing offered, the block waits and keeps all its state. That
waiting is a step of the model is its own choice (log 13, DEDUCED). -/
def Obligations.WaitingKeepsAllState : Prop :=
  ∀ s : State, (s.busy = true → step s = .next s) ∧ (s.busy = false → s.input = [] → step s = .next s)

/-- R66, R90: while halted, faulted or never reset, the block has no step for a character or `EOS`, and `RST` is
accepted and leaves it accepting. The order of the reasons is the model's choice (log 12, DESIGN CHOICE). -/
def Obligations.StreamEventsRefusedUntilReset : Prop :=
  ∀ (s : State) (rest : List Offer), s.busy = false →
    (∀ e, s.input = .stream e :: rest →
      (s.constructed = false → step s = .refused .neverReset) ∧
      (s.constructed = true → s.halted = true → step s = .refused .afterEndOfStream) ∧
      (s.constructed = true → s.halted = false → s.fault ≠ .none → step s = .refused .afterFault)) ∧
    (∀ c, s.input = .reset c :: rest → ∃ t, step s = .next t ∧ t.accepting = true)

/-- R8, R48, R51: an accepting block has a step for every character, and the character has been taken from the offers.
That holds too of the character whose instruction raises `BufOverflow` (R71; that it has been taken is log 14, DEDUCED)
and of a newline whose `Transmit` is never answered (R75; that the block then waits in a next state, and not inside the
step, is log 8, DESIGN CHOICE). -/
def Obligations.EveryCharacterHasAStep : Prop :=
  ∀ (s : State) (c : Byte) (rest : List Offer), s.accepting = true → s.input = .stream (.char c) :: rest →
    ∃ t, step s = .next t ∧ t.input = rest

/-- R69: the model's own fault, a read of a word that does not exist, is never reached from any state. -/
def Obligations.NoStepReadsAMissingWord : Prop := ∀ (s : State) (r : Fault), step s ≠ .fault r

/-! ### The instructions -/

/-- R55: `NIBH n`, its encoding, its effect on the whole state, and that it needs no room. -/
def Obligations.NibhParksTheHighNibble : Prop :=
  (∀ (c : Byte) (n : Nibble) (z : Zone), classify c = .hex n z → decodeChar false c = .nibh n z) ∧
  (∀ (n : Nibble) (z : Zone) (s : State), s.accepting = true → s.pend = false →
    exec (.nibh n z) s = .next { s with cur := n.setWidth 8 <<< 4, pend := true })

/-- R56: `NIBL n`, its encoding; with room for 16 words it completes the byte, appends its 16 words in the wire order of
R57 and clears `pend`, and nothing else changes; without room it sets `fault` and nothing else changes. -/
def Obligations.NiblCompletesTheByte : Prop :=
  (∀ (c : Byte) (n : Nibble) (z : Zone), classify c = .hex n z → decodeChar true c = .nibl n z) ∧
  (∀ (n : Nibble) (z : Zone) (s : State), s.accepting = true → s.pend = true →
    (∀ d, s.params.bufDepth = some d → s.len + 16 ≤ d) →
    exec (.nibl n z) s =
      .next { s with
        cur := s.cur ||| n.setWidth 8
        buf := s.buf ++ wireWords s.cfg (s.cur ||| n.setWidth 8)
        pend := false }) ∧
  (∀ (n : Nibble) (z : Zone) (s : State) (d : Nat), s.accepting = true → s.pend = true →
    s.params.bufDepth = some d → d < s.len + 16 → exec (.nibl n z) s = .next { s with fault := .bufOverflow })

/-- R59: `SEP`, its encoding in both modes; with room for 4 words it appends the tail pair and then the header pair, and
nothing else changes, `pend` and `cur` included, and nothing is transmitted; without room it sets `fault` and nothing else
changes. -/
def Obligations.SepClosesAndOpensAFrame : Prop :=
  (∀ pend : Bool, decodeChar pend 0x2C = .sep) ∧
  (∀ s : State, s.accepting = true → (∀ d, s.params.bufDepth = some d → s.len + 4 ≤ d) →
    exec .sep s =
      .next { s with
        buf := s.buf ++ [s.cfg.tailMarkLen, s.cfg.tailSpaceLen, s.cfg.headerMarkLen, s.cfg.headerSpaceLen] }) ∧
  (∀ (s : State) (d : Nat), s.accepting = true → s.params.bufDepth = some d → d < s.len + 4 →
    exec .sep s = .next { s with fault := .bufOverflow })

/-- R60, R61: `EOT` with room for 2 words, when the Transmitter answers: one request with the whole buffer and the tail
pair, one report if the drawn status is not zero, then the empty buffer and R61's parameter. `draws` is the model's own
counter (log 9, DESIGN CHOICE). -/
def Obligations.EotDispatchesTheBatch : Prop :=
  ∀ s : State, s.accepting = true → (∀ d, s.params.bufDepth = some d → s.len + 2 ≤ d) →
    s.txSilentAt ≠ some s.draws →
    exec .eot s =
      .next { s with
        buf := []
        out := s.out ++ [.tx ⟨s.buf ++ [s.cfg.tailMarkLen, s.cfg.tailSpaceLen], 38000, ⟨1, 2⟩⟩] ++
          (if Config.txStatusWord s.draws = 0 then [] else [.report .txFailure])
        pend := if s.params.eotClearsPend then false else s.pend
        draws := s.draws + 1 }

/-- R75 (U9): when the Transmitter never answers, the request has gone out, nothing after it happens, and every later
step waits. That silence is a field of the state is the model's choice (log 8, DESIGN CHOICE). -/
def Obligations.EotHangsOnASilentTransmitter : Prop :=
  ∀ s : State, s.accepting = true → (∀ d, s.params.bufDepth = some d → s.len + 2 ≤ d) →
    s.txSilentAt = some s.draws →
    ∃ t, exec .eot s = .next t ∧
      t = { s with
        buf := s.buf ++ [s.cfg.tailMarkLen, s.cfg.tailSpaceLen]
        out := s.out ++ [.tx ⟨s.buf ++ [s.cfg.tailMarkLen, s.cfg.tailSpaceLen], 38000, ⟨1, 2⟩⟩]
        busy := true } ∧
      ∀ k, Sys2Proof.Machine.run k t = .next t

/-- R64: `IGN` is any of the 232 other codes in either mode and changes nothing. -/
def Obligations.IgnChangesNothing : Prop :=
  (∀ (pend : Bool) (c : Byte), isOther c = true → decodeChar pend c = .ign c) ∧
  (∀ (c : Byte) (s : State), s.accepting = true → exec (.ign c) s = .next s)

/-- R65: `EOS` sets `halted` and does nothing else. R65 lets a model discard the buffer and `cur`; that they are kept
is the model's choice (log 15, DESIGN CHOICE), and so is that the event leaves the list of offers (log 1, DESIGN
CHOICE). -/
def Obligations.EosHaltsAndNothingElse : Prop :=
  ∀ (s : State) (rest : List Offer), s.accepting = true → s.input = .stream .eos :: rest →
    step s = .next { s with halted := true, input := rest }

/-- R89, R28, R93: `RST` out of any state in which no `Transmit` is outstanding. `cur` is some value of which nothing is
known (log 6, DESIGN CHOICE); the run's output starts empty, and what was made before stays in `earlier` (log 19, DESIGN
CHOICE); the counters `draws` and `resets` (log 9, DESIGN CHOICE), `txSilentAt` (log 8, DESIGN CHOICE) and
`constructed` (log 11, DEDUCED) are the model's own. -/
def Obligations.RstConstructsAFreshState : Prop :=
  ∀ (s : State) (c : Cfg) (rest : List Offer), s.busy = false → s.input = .reset c :: rest →
    ∃ v, step s = .next
      { cfg := c, cur := v, pend := false, buf := [c.headerMarkLen, c.headerSpaceLen], halted := false,
        fault := .none, busy := false, constructed := true, params := s.params, input := rest, out := [],
        earlier := s.earlier ++ s.out, draws := s.draws, resets := s.resets + 1, txSilentAt := s.txSilentAt }

/-- R92: `RST` makes no `Transmit` and no report; it does not touch the Transmitter, which answers as it would have
without it; and it remembers nothing of the registers of the previous run. The Transmitter's fields `draws` and
`txSilentAt` are the model's (log 9, DESIGN CHOICE; log 8, DESIGN CHOICE), and so are `earlier` (log 19, DESIGN CHOICE)
and that `cur` after the `RST` is a function of the counter `resets` alone (log 6, DESIGN CHOICE; log 9, DESIGN
CHOICE). -/
def Obligations.RstForgetsThePreviousRun : Prop :=
  (∀ (c : Cfg) (s : State),
    (takeRst c s).sent = s.sent ∧ (takeRst c s).out = [] ∧ (takeRst c s).txAnswers = s.txAnswers ∧
      (takeRst c s).txStatus = s.txStatus ∧ (takeRst c s).draws = s.draws ∧
      (takeRst c s).txSilentAt = s.txSilentAt) ∧
  (∀ (c : Cfg) (s t : State), s.params = t.params → s.input = t.input → s.sent = t.sent → s.draws = t.draws →
    s.resets = t.resets → s.txSilentAt = t.txSilentAt → takeRst c s = takeRst c t)

/-- R33, R70, R71: without room for all its words an instruction appends nothing and raises `BufOverflow`; no other state
changes, so nothing is transmitted or reported. -/
def Obligations.OverflowRaisesAndAppendsNothing : Prop :=
  ∀ (s : State) (d : Nat), s.accepting = true → s.params.bufDepth = some d →
    (∀ n z, s.pend = true → d < s.len + 16 → exec (.nibl n z) s = .next { s with fault := .bufOverflow }) ∧
    (d < s.len + 4 → exec .sep s = .next { s with fault := .bufOverflow }) ∧
    (d < s.len + 2 → exec .eot s = .next { s with fault := .bufOverflow })

/-- R57: pair `k` of a byte encodes bit `7-k` without swap and bit `k` with swap; the swap reverses the symbols of the
byte; a byte that reads the same from both ends expands the same either way. -/
def Obligations.WireOrderOfTheBits : Prop :=
  ∀ b : Byte,
    (∀ k, k < 8 → (expandByte b false)[k]? = some (if b.getLsbD (7 - k) then .one else .zero)) ∧
    (∀ k, k < 8 → (expandByte b true)[k]? = some (if b.getLsbD k then .one else .zero)) ∧
    (expandByte b false).length = 8 ∧ expandByte b true = (expandByte b false).reverse ∧
    ((∀ k, k < 8 → b.getLsbD k = b.getLsbD (7 - k)) → expandByte b true = expandByte b false)

/-- R58: a digit pair `X Y` gives the byte `16*X + Y`, and its 16 words go to the end of the buffer. -/
def Obligations.DigitPairMakesAByte : Prop :=
  ∀ (x y : Nibble) (zx zy : Zone) (s : State), s.accepting = true → s.pend = false →
    (∀ d, s.params.bufDepth = some d → s.len + 16 ≤ d) →
    ∃ t u, exec (.nibh x zx) s = .next t ∧ exec (.nibl y zy) t = .next u ∧
      u.cur.toNat = 16 * x.toNat + y.toNat ∧ u.buf = s.buf ++ wireWords s.cfg u.cur ∧ u.pend = false

/-- R62, R96: after an answered `EOT` the buffer is empty, and the digit pair after it puts only its byte's words there:
no header pair comes back. -/
def Obligations.NoHeaderAfterANewline : Prop :=
  ∀ (x y : Nibble) (zx zy : Zone) (s : State), s.accepting = true →
    (∀ d, s.params.bufDepth = some d → s.len + 2 ≤ d ∧ 16 ≤ d) → s.txSilentAt ≠ some s.draws → s.pend = false →
    ∃ t u v, exec .eot s = .next t ∧ t.buf = [] ∧ exec (.nibh x zx) t = .next u ∧ u.buf = [] ∧
      exec (.nibl y zy) u = .next v ∧ v.buf = wireWords s.cfg v.cur

/-- R61: when no nibble is pending at an `EOT`, the parameter `EOT_CLEARS_PEND` has no effect. -/
def Obligations.ClearsPendParameterUnseenAtEvenCount : Prop :=
  ∀ (s : State) (b : Bool), s.pend = false →
    Agree (fun t u => u = { t with params := { t.params with eotClearsPend := b } })
      (exec .eot s) (exec .eot { s with params := { s.params with eotClearsPend := b } })

/-! ### Frames -/

/-- R55, R64: `NIBH` and `IGN` leave every word of the buffer, every register and flag but `cur` and `pend`, and
everything outside the encoder as they were; `IGN` leaves `cur` and `pend` too. -/
def Obligations.FrameOfNibhAndIgn : Prop :=
  ∀ (i : Instr) (s t : State), (∃ n z, i = .nibh n z) ∨ (∃ c, i = .ign c) → exec i s = .next t →
    (∀ a, Memory.read t.buf a = Memory.read s.buf a) ∧ t.len = s.len ∧ t.cfg = s.cfg ∧ t.halted = s.halted ∧
    t.fault = s.fault ∧ t.busy = s.busy ∧ t.constructed = s.constructed ∧ t.params = s.params ∧ t.input = s.input ∧
    t.out = s.out ∧ t.earlier = s.earlier ∧ t.draws = s.draws ∧ t.resets = s.resets ∧ t.txSilentAt = s.txSilentAt ∧
    ((∃ c, i = .ign c) → t.cur = s.cur ∧ t.pend = s.pend)

/-- R56, R59, R71: `NIBL` stores at `len .. len+15`, `SEP` at `len .. len+3`, and outside those words the buffer is as
before; an overflow stores nothing and sets `fault` alone. Of the registers only `cur` and `pend` may change, by
`NIBL` only; `fault` changes by an overflow only. -/
def Obligations.FrameOfNiblAndSep : Prop :=
  ∀ (i : Instr) (k : Nat) (s t : State), ((∃ n z, i = .nibl n z) ∧ k = 16) ∨ (i = .sep ∧ k = 4) →
    exec i s = .next t →
    (∀ a, a < s.len ∨ s.len + k ≤ a → Memory.read t.buf a = Memory.read s.buf a) ∧
    (t.len = s.len + k ∧ t.fault = s.fault ∨ t = { s with fault := .bufOverflow }) ∧
    t.cfg = s.cfg ∧ t.halted = s.halted ∧ t.busy = s.busy ∧ t.constructed = s.constructed ∧ t.params = s.params ∧
    t.input = s.input ∧ t.out = s.out ∧ t.earlier = s.earlier ∧ t.draws = s.draws ∧ t.resets = s.resets ∧
    t.txSilentAt = s.txSilentAt ∧ (i = .sep → t.cur = s.cur ∧ t.pend = s.pend)

/-- R60, R61: `EOT` leaves every register and flag but `pend` as it was, and `pend` too unless `EOT_CLEARS_PEND`;
`fault` changes by an overflow only; its buffer is empty afterwards, or (with a silent Transmitter) holds every word it
held, or (after an overflow) is unchanged. -/
def Obligations.FrameOfEot : Prop :=
  ∀ s t : State, exec .eot s = .next t →
    t.cfg = s.cfg ∧ t.cur = s.cur ∧ t.halted = s.halted ∧ t.constructed = s.constructed ∧ t.params = s.params ∧
    t.input = s.input ∧ t.txSilentAt = s.txSilentAt ∧ t.earlier = s.earlier ∧ t.resets = s.resets ∧ s.out <+: t.out ∧
    (s.params.eotClearsPend = false → t.pend = s.pend) ∧ (t.pend = s.pend ∨ t.pend = false) ∧
    (t.fault = s.fault ∧ t.busy = false ∧ t.buf = [] ∨
      t.fault = s.fault ∧ t.busy = true ∧
        (∀ a, a < s.len ∨ s.len + 2 ≤ a → Memory.read t.buf a = Memory.read s.buf a) ∨
      t = { s with fault := .bufOverflow })

/-! ### Whole-machine rules -/

/-- R13: `pend` becomes 1 by a hex digit only; it becomes 0 by a hex digit, by `RST`, or by a newline under
`EOT_CLEARS_PEND`. -/
def Obligations.OnlyTheseEventsChangePend : Prop :=
  ∀ s s' : State, step s = .next s' →
    (s.pend = false → s'.pend = true → ∃ c n z, s.takesChar c ∧ classify c = .hex n z) ∧
    (s.pend = true → s'.pend = false →
      s.takesReset ∨ (∃ c n z, s.takesChar c ∧ classify c = .hex n z) ∨
        (s.takesChar 0x0A ∧ s.params.eotClearsPend = true))

/-- R14, R17: no event but `RST` writes a configuration field; and no event at all writes a parameter (R6; log 2, DESIGN CHOICE). -/
def Obligations.OnlyResetWritesTheConfiguration : Prop :=
  ∀ s s' : State, step s = .next s' → s'.params = s.params ∧ (¬ s.takesReset → s'.cfg = s.cfg)

/-- R19, R20, R71: once `halted` or `fault` is set, only `RST` clears it. -/
def Obligations.OnlyResetClearsHaltedAndFault : Prop :=
  ∀ s s' : State, step s = .next s' → ¬ s.takesReset →
    (s.halted = true → s'.halted = true) ∧ (s.fault ≠ .none → s'.fault = s.fault)

/-- R39, R73: output is made by a newline only, and it is one request for the whole buffer with the tail pair, and at
most one report; what has been sent is never taken back. `RST` makes none: it begins a new run, whose own output is empty
(R93; that earlier runs' output stands in `earlier` is log 19, DESIGN CHOICE). -/
def Obligations.OnlyEotPublishes : Prop :=
  ∀ s s' : State, step s = .next s' →
    (s'.sent = s.sent ∧ (s'.out = s.out ∨ s.takesReset ∧ s'.out = [])) ∨
      (s.takesChar 0x0A ∧ ∃ reports, (reports = [] ∨ reports = [.report .txFailure]) ∧ s'.earlier = s.earlier ∧
        s'.out = s.out ++
          .tx ⟨s.buf ++ [s.cfg.tailMarkLen, s.cfg.tailSpaceLen], 38000, ⟨1, 2⟩⟩ :: reports)

/-- R27, R93: what an outside observer sees of a run changes by a newline, by `EOS`, or by a fault, and by nothing else
but an `RST`, at which a new run begins with no event, not halted and not faulted. -/
def Obligations.ObservationChangesOnlyByTheseEvents : Prop :=
  ∀ s s' : State, step s = .next s' →
    s'.observe = s.observe ∨ (s.takesReset ∧ s'.observe = ([], false, .none)) ∨ (∃ t, takeEvent s = .eos t) ∨ s.takesChar 0x0A ∨
      (s.fault = .none ∧ s'.fault = .bufOverflow ∧ s'.out = s.out)

/-- R27, R93: a run with no newline in it has an empty output, whatever was sent in the runs before the `RST` that begins
it, and whatever further `RST` stand among its events. -/
def Obligations.RunWithoutNewlineHasNoOutput : Prop :=
  ∀ (k : Nat) (c : Cfg) (s u t : State), takeEvent s = .rst c u → (∀ o ∈ u.input, ¬ o.bringsNewline) →
    Sys2Proof.Machine.run (k + 1) s = .next t → t.observe = ([], t.halted, t.fault)

/-- R66, R93: between steps a block that has been reset is accepting, or its run has ended normally or abnormally;
`EOS` ends a run normally and an overflow ends it abnormally. -/
def Obligations.RunEndsAsStated : Prop :=
  (∀ s : State, s.constructed = true → s.busy = false →
    (s.accepting = false ↔ s.endedNormally = true ∨ s.endedAbnormally = true)) ∧
  (∀ s t : State, takeEos s = .next t → t.endedNormally = true) ∧
  (∀ (i : Instr) (s t : State), exec i s = .next t → t.fault ≠ .none → t.endedAbnormally = true)

/-- R63: the transitions of the delimiter state machine, over what the buffer holds. -/
def Obligations.DelimiterMachineTransitions : Prop :=
  (∀ (i : Instr) (s t : State), exec i s = .next t → t.fault = .none → t.busy = false →
    (match i with
      | .nibh _ _ => t.buf = s.buf
      | .nibl _ _ => (IsOpen s.cfg s.buf → IsOpen t.cfg t.buf) ∧ (IsBare s.cfg s.buf → IsBare t.cfg t.buf)
      | .sep => IsOpen t.cfg t.buf
      | .eot => IsBare t.cfg t.buf
      | .ign _ => t.buf = s.buf)) ∧
  (∀ (c : Cfg) (s : State), IsOpen (takeRst c s).cfg (takeRst c s).buf)

/-! ### Invariants -/

/-- R28, R89: what reset leaves, for every configuration on the port. -/
def Obligations.ResetLeavesTheStatedValues : Prop :=
  (∀ (p : Params) (c : Cfg),
    let s := State.resetWith p c
    s.cfg = c ∧ s.pend = false ∧ s.len = 2 ∧ Memory.read s.buf 0 = some c.headerMarkLen ∧
      Memory.read s.buf 1 = some c.headerSpaceLen ∧ (∀ i, 2 ≤ i → Memory.read s.buf i = none) ∧
      s.halted = false ∧ s.fault = .none) ∧
  State.reset = State.resetWith Config.paramsDefault Config.cfgDefault

/-- R23 holds right after reset, for every configuration and all legal parameters. -/
def Obligations.EncoderInvariantAtReset : Prop :=
  (∀ (p : Params) (c : Cfg), legalParams p → EncoderInv (State.resetWith p c)) ∧ EncoderInv State.reset

/-- R23: from every state that has the invariants, a step leads to one that has them. -/
def Obligations.StepKeepsTheEncoderInvariant : Prop :=
  ∀ s s' : State, EncoderInv s → step s = .next s' → EncoderInv s'

/-- R23, R89: whatever the state was, `RST` establishes the invariants. -/
def Obligations.RstEstablishesTheEncoderInvariant : Prop :=
  ∀ (c : Cfg) (s : State), legalParams s.params → EncoderInv (takeRst c s)

/-- R60(d), R77: every request ever sent has an even length of at least 2 and carries 38000 and 1/2; a step keeps it so. -/
def Obligations.StepKeepsTheBatchShape : Prop :=
  BatchShape State.reset ∧ ∀ s s' : State, EncoderInv s → BatchShape s → step s = .next s' → BatchShape s'

/-- R14, R99 (D3): the block only copies durations, so a machine whose configurations all fit the width `DW` never holds
or sends a word that does not. It holds right after reset for every width and every configuration that fits it. -/
def Obligations.StepKeepsDurationsInWidth : Prop :=
  (∀ (p : Params) (c : Cfg), cfgFits p c → WidthInv (State.resetWith p c)) ∧ ∀ s s' : State, WidthInv s → step s = .next s' → WidthInv s'

/-! ### Isolation -/

/-- R11: `cur` is read by no rule while `pend` = 0. Two states that differ only in such a `cur` take steps that agree,
their output included. -/
def Obligations.DeadCurIsNeverSeen : Prop :=
  ∀ s t : State, SameButDeadCur s t → Agree SameButDeadCur (step s) (step t)

/-- R74, R86: over any number of steps, the Transmitter's statuses change only the reports: two runs from states that
differ in the statuses still to come make the same requests and end in states that agree; and where they began with the
same `cur` they end with the same `cur`. -/
def Obligations.StatusesChangeOnlyTheReports : Prop :=
  ∀ (k : Nat) (s t : State), SameButStatus s t →
    Agree (fun a b => SameButStatus a b ∧ (s.cur = t.cur → a.cur = b.cur)) (Sys2Proof.Machine.run k s) (Sys2Proof.Machine.run k t)

/-! ### A whole line -/

/-- R35, R38, R51: a line of frames, offered to a block that holds just the header pair, is sent as one request: the
frames' words in order. `lineText` writes the line in upper case and without R51's ignored characters (log 27, DEDUCED);
that lower case and ignored characters make no difference is `Obligations.PlainTextActsAsTheText`. -/
def Obligations.LineSendsItsFrames : Prop :=
  ∀ (frames : List (List Byte)) (s : State) (rest : List Offer), frames ≠ [] → s.accepting = true →
    s.pend = false → s.buf = headerWords s.cfg → s.txSilentAt ≠ some s.draws →
    (∀ d, s.params.bufDepth = some d → (frames.map fun f => 4 + 16 * f.length).sum ≤ d) →
    s.input = charOffers (lineText frames) ++ rest →
    ∃ t, Sys2Proof.Machine.run (lineText frames).length s = .next t ∧ t.input = rest ∧ t.buf = [] ∧
      requests t.out = requests s.out ++ [⟨frames.flatMap (frameWords s.cfg), 38000, ⟨1, 2⟩⟩] ∧
      (frames.flatMap (frameWords s.cfg)).length = (frames.map fun f => 4 + 16 * f.length).sum

/-- R46, R51, R64: ignored characters anywhere in a text, even between the two digits of a byte, and the case of its
letters make no difference: where the text without them and in upper case leads to a state that still accepts events, the
text itself leads to the same state. -/
def Obligations.PlainTextActsAsTheText : Prop :=
  ∀ (text : List Byte) (s t : State) (rest : List Offer), s.input = charOffers text ++ rest →
    Sys2Proof.Machine.run (plainText text).length { s with input := charOffers (plainText text) ++ rest } = .next t →
    t.accepting = true → Sys2Proof.Machine.run text.length s = .next t

/-- R52, R26: the explicit argument acts as its characters, one newline and `EOS`, also when it already ends in a
newline; standard input gets no newline. -/
def Obligations.ArgumentGetsOneNewline : Prop :=
  ∀ text : List Byte,
    argumentOffers text = charOffers text ++ [.stream (.char 0x0A), .stream .eos] ∧
    stdinOffers text = charOffers text ++ [.stream .eos] ∧
    argumentOffers (text ++ [0x0A]) =
      charOffers text ++ [.stream (.char 0x0A), .stream (.char 0x0A), .stream .eos]

/-- R76, R30: the textual variant has one line per duration, `pulse` at even and `space` at odd positions. -/
def Obligations.DumpAlternatesItsLabels : Prop :=
  ∀ train : List Duration, (dumpLines train).length = train.length ∧
    ∀ i d, train[i]? = some d → (dumpLines train)[i]? = some (if i % 2 = 0 then .pulse else .space, d)

/-- R33: the write of `Append` at `len`: the new word is read at `len`, every other word is as before, and the buffer
stays in canonical form (log 4, DESIGN CHOICE). -/
def Obligations.AppendWritesOneWordAtLen : Prop :=
  ∀ (v : Duration) (s : State),
    (s.append v).len = s.len + 1 ∧ Memory.read (s.append v).buf s.len = some v ∧
    (∀ i, i ≠ s.len → Memory.read (s.append v).buf i = Memory.read s.buf i) ∧
    Memory.wf (s.append v).buf = true ∧ s.append v = { s with buf := (s.append v).buf }
end

