-- ==== Sys2Proof/Laws/Memory.lean ====
section
/-!
SUPPORT. The laws of the buffer as a memory: read after write, the canonical form, what `Append` does
(spec/20_memory.md R33, R36).
-/

namespace Sys2Proof.Machine

/-- The addresses of the cells are 0, 1, 2, … -/
theorem cells_addresses (m : Memory) : (Memory.cells m).map Prod.fst = List.range m.length := by
  simp [Memory.cells, List.map_fst_zip]

/-- Every buffer is in canonical form, so every operation keeps the form. -/
theorem memory_wf (m : Memory) : Memory.wf m = true := by
  simp [Memory.wf, cells_addresses, List.pairwise_lt_range]

/-- Every write keeps the canonical form. -/
theorem write_keeps_wf (m : Memory) (addr : Nat) (v : List Duration) (_h : Memory.wf m = true) :
    Memory.wf (Memory.write m addr v) = true := memory_wf _

/-- Reset's buffer is in canonical form. -/
theorem reset_buf_wf : Memory.wf State.reset.buf = true := memory_wf _

/-- A write at `len` grows the buffer at its end. -/
@[simp] theorem write_at_len (m : Memory) (v : List Duration) : Memory.write m m.length v = m ++ v := by
  simp [Memory.write]

/-- Reading what a write inside or at the end of the buffer has written. -/
theorem read_write_same (m : Memory) (addr i : Nat) (v : List Duration) (ha : addr ≤ m.length) (hi : i < v.length) :
    Memory.read (Memory.write m addr v) (addr + i) = v[i]? := by
  simp [Memory.read, Memory.write, List.getElem?_append, Nat.min_eq_left ha, hi]

/-- A write leaves every word outside it alone. -/
theorem read_write_other (m : Memory) (addr i : Nat) (v : List Duration) (ha : addr ≤ m.length)
    (hi : i < addr ∨ addr + v.length ≤ i) : Memory.read (Memory.write m addr v) i = Memory.read m i := by
  rcases hi with hi | hi
  · simp [Memory.read, Memory.write, List.getElem?_append, Nat.min_eq_left ha, hi]
  · simp only [Memory.read, Memory.write, List.append_assoc, List.getElem?_append, List.length_take,
      Nat.min_eq_left ha, List.getElem?_drop]
    rw [if_neg (by omega), if_neg (by omega)]
    congr 1
    omega

/-- A read of the range below `len` is the whole buffer. -/
@[simp] theorem readRange_whole (m : Memory) : Memory.readRange m 0 m.length = some m := by
  simp [Memory.readRange]

@[simp] theorem len_eq (s : State) : s.len = s.buf.length := rfl

/-- What `Append` without its check does: the buffer grows by one word and nothing else changes. -/
theorem append_eq (v : Duration) (s : State) : s.append v = s.setBuf (s.buf ++ [v]) := by
  simp [State.append]

/-- What `AppendPair` does. -/
theorem appendPair_eq (p : Duration × Duration) (s : State) : s.appendPair p = s.setBuf (s.buf ++ [p.1, p.2]) := by
  simp [State.appendPair, append_eq, State.setBuf]

/-- What `AppendPair(LUT(sym))` does. -/
theorem appendSym_eq (sym : Sym) (s : State) :
    s.appendSym sym = s.setBuf (s.buf ++ [(lut s.cfg sym).1, (lut s.cfg sym).2]) := appendPair_eq _ _

/-- What appending a list of symbols does: their pairs go to the end of the buffer, and nothing else changes. -/
theorem appendSyms_eq (l : List Sym) (s : State) :
    s.appendSyms l = s.setBuf (s.buf ++ l.flatMap fun sym => [(lut s.cfg sym).1, (lut s.cfg sym).2]) := by
  induction l generalizing s with
  | nil => simp [State.appendSyms, State.setBuf]
  | cons a l ih =>
    have h : s.appendSyms (a :: l) = (s.appendSym a).appendSyms l := rfl
    rw [h, ih, appendSym_eq]
    simp [State.setBuf]

end Sys2Proof.Machine
end

