-- ==== Sys2Proof/Laws/State.lean ====
section
/-!
SUPPORT. For each single operation on the state, what every field is after it. All true by definition.
-/

namespace Sys2Proof.Machine

section

variable (s : State)


/-! setCur -/

@[simp] theorem setCur_cfg (v : Byte) : (State.setCur v s).cfg = s.cfg := rfl
@[simp] theorem setCur_cur (v : Byte) : (State.setCur v s).cur = v := rfl
@[simp] theorem setCur_pend (v : Byte) : (State.setCur v s).pend = s.pend := rfl
@[simp] theorem setCur_buf (v : Byte) : (State.setCur v s).buf = s.buf := rfl
@[simp] theorem setCur_halted (v : Byte) : (State.setCur v s).halted = s.halted := rfl
@[simp] theorem setCur_fault (v : Byte) : (State.setCur v s).fault = s.fault := rfl
@[simp] theorem setCur_busy (v : Byte) : (State.setCur v s).busy = s.busy := rfl
@[simp] theorem setCur_constructed (v : Byte) : (State.setCur v s).constructed = s.constructed := rfl
@[simp] theorem setCur_params (v : Byte) : (State.setCur v s).params = s.params := rfl
@[simp] theorem setCur_input (v : Byte) : (State.setCur v s).input = s.input := rfl
@[simp] theorem setCur_out (v : Byte) : (State.setCur v s).out = s.out := rfl
@[simp] theorem setCur_earlier (v : Byte) : (State.setCur v s).earlier = s.earlier := rfl
@[simp] theorem setCur_draws (v : Byte) : (State.setCur v s).draws = s.draws := rfl
@[simp] theorem setCur_resets (v : Byte) : (State.setCur v s).resets = s.resets := rfl
@[simp] theorem setCur_txSilentAt (v : Byte) : (State.setCur v s).txSilentAt = s.txSilentAt := rfl

/-! setPend -/

@[simp] theorem setPend_cfg (b : Bool) : (State.setPend b s).cfg = s.cfg := rfl
@[simp] theorem setPend_cur (b : Bool) : (State.setPend b s).cur = s.cur := rfl
@[simp] theorem setPend_pend (b : Bool) : (State.setPend b s).pend = b := rfl
@[simp] theorem setPend_buf (b : Bool) : (State.setPend b s).buf = s.buf := rfl
@[simp] theorem setPend_halted (b : Bool) : (State.setPend b s).halted = s.halted := rfl
@[simp] theorem setPend_fault (b : Bool) : (State.setPend b s).fault = s.fault := rfl
@[simp] theorem setPend_busy (b : Bool) : (State.setPend b s).busy = s.busy := rfl
@[simp] theorem setPend_constructed (b : Bool) : (State.setPend b s).constructed = s.constructed := rfl
@[simp] theorem setPend_params (b : Bool) : (State.setPend b s).params = s.params := rfl
@[simp] theorem setPend_input (b : Bool) : (State.setPend b s).input = s.input := rfl
@[simp] theorem setPend_out (b : Bool) : (State.setPend b s).out = s.out := rfl
@[simp] theorem setPend_earlier (b : Bool) : (State.setPend b s).earlier = s.earlier := rfl
@[simp] theorem setPend_draws (b : Bool) : (State.setPend b s).draws = s.draws := rfl
@[simp] theorem setPend_resets (b : Bool) : (State.setPend b s).resets = s.resets := rfl
@[simp] theorem setPend_txSilentAt (b : Bool) : (State.setPend b s).txSilentAt = s.txSilentAt := rfl

/-! setBuf -/

@[simp] theorem setBuf_cfg (m : Memory) : (State.setBuf m s).cfg = s.cfg := rfl
@[simp] theorem setBuf_cur (m : Memory) : (State.setBuf m s).cur = s.cur := rfl
@[simp] theorem setBuf_pend (m : Memory) : (State.setBuf m s).pend = s.pend := rfl
@[simp] theorem setBuf_buf (m : Memory) : (State.setBuf m s).buf = m := rfl
@[simp] theorem setBuf_halted (m : Memory) : (State.setBuf m s).halted = s.halted := rfl
@[simp] theorem setBuf_fault (m : Memory) : (State.setBuf m s).fault = s.fault := rfl
@[simp] theorem setBuf_busy (m : Memory) : (State.setBuf m s).busy = s.busy := rfl
@[simp] theorem setBuf_constructed (m : Memory) : (State.setBuf m s).constructed = s.constructed := rfl
@[simp] theorem setBuf_params (m : Memory) : (State.setBuf m s).params = s.params := rfl
@[simp] theorem setBuf_input (m : Memory) : (State.setBuf m s).input = s.input := rfl
@[simp] theorem setBuf_out (m : Memory) : (State.setBuf m s).out = s.out := rfl
@[simp] theorem setBuf_earlier (m : Memory) : (State.setBuf m s).earlier = s.earlier := rfl
@[simp] theorem setBuf_draws (m : Memory) : (State.setBuf m s).draws = s.draws := rfl
@[simp] theorem setBuf_resets (m : Memory) : (State.setBuf m s).resets = s.resets := rfl
@[simp] theorem setBuf_txSilentAt (m : Memory) : (State.setBuf m s).txSilentAt = s.txSilentAt := rfl

/-! clearBuf -/

@[simp] theorem clearBuf_cfg : (State.clearBuf s).cfg = s.cfg := rfl
@[simp] theorem clearBuf_cur : (State.clearBuf s).cur = s.cur := rfl
@[simp] theorem clearBuf_pend : (State.clearBuf s).pend = s.pend := rfl
@[simp] theorem clearBuf_buf : (State.clearBuf s).buf = [] := rfl
@[simp] theorem clearBuf_halted : (State.clearBuf s).halted = s.halted := rfl
@[simp] theorem clearBuf_fault : (State.clearBuf s).fault = s.fault := rfl
@[simp] theorem clearBuf_busy : (State.clearBuf s).busy = s.busy := rfl
@[simp] theorem clearBuf_constructed : (State.clearBuf s).constructed = s.constructed := rfl
@[simp] theorem clearBuf_params : (State.clearBuf s).params = s.params := rfl
@[simp] theorem clearBuf_input : (State.clearBuf s).input = s.input := rfl
@[simp] theorem clearBuf_out : (State.clearBuf s).out = s.out := rfl
@[simp] theorem clearBuf_earlier : (State.clearBuf s).earlier = s.earlier := rfl
@[simp] theorem clearBuf_draws : (State.clearBuf s).draws = s.draws := rfl
@[simp] theorem clearBuf_resets : (State.clearBuf s).resets = s.resets := rfl
@[simp] theorem clearBuf_txSilentAt : (State.clearBuf s).txSilentAt = s.txSilentAt := rfl

/-! setInput -/

@[simp] theorem setInput_cfg (l : List Offer) : (State.setInput l s).cfg = s.cfg := rfl
@[simp] theorem setInput_cur (l : List Offer) : (State.setInput l s).cur = s.cur := rfl
@[simp] theorem setInput_pend (l : List Offer) : (State.setInput l s).pend = s.pend := rfl
@[simp] theorem setInput_buf (l : List Offer) : (State.setInput l s).buf = s.buf := rfl
@[simp] theorem setInput_halted (l : List Offer) : (State.setInput l s).halted = s.halted := rfl
@[simp] theorem setInput_fault (l : List Offer) : (State.setInput l s).fault = s.fault := rfl
@[simp] theorem setInput_busy (l : List Offer) : (State.setInput l s).busy = s.busy := rfl
@[simp] theorem setInput_constructed (l : List Offer) : (State.setInput l s).constructed = s.constructed := rfl
@[simp] theorem setInput_params (l : List Offer) : (State.setInput l s).params = s.params := rfl
@[simp] theorem setInput_input (l : List Offer) : (State.setInput l s).input = l := rfl
@[simp] theorem setInput_out (l : List Offer) : (State.setInput l s).out = s.out := rfl
@[simp] theorem setInput_earlier (l : List Offer) : (State.setInput l s).earlier = s.earlier := rfl
@[simp] theorem setInput_draws (l : List Offer) : (State.setInput l s).draws = s.draws := rfl
@[simp] theorem setInput_resets (l : List Offer) : (State.setInput l s).resets = s.resets := rfl
@[simp] theorem setInput_txSilentAt (l : List Offer) : (State.setInput l s).txSilentAt = s.txSilentAt := rfl

/-! emit -/

@[simp] theorem emit_cfg (o : Output) : (State.emit o s).cfg = s.cfg := rfl
@[simp] theorem emit_cur (o : Output) : (State.emit o s).cur = s.cur := rfl
@[simp] theorem emit_pend (o : Output) : (State.emit o s).pend = s.pend := rfl
@[simp] theorem emit_buf (o : Output) : (State.emit o s).buf = s.buf := rfl
@[simp] theorem emit_halted (o : Output) : (State.emit o s).halted = s.halted := rfl
@[simp] theorem emit_fault (o : Output) : (State.emit o s).fault = s.fault := rfl
@[simp] theorem emit_busy (o : Output) : (State.emit o s).busy = s.busy := rfl
@[simp] theorem emit_constructed (o : Output) : (State.emit o s).constructed = s.constructed := rfl
@[simp] theorem emit_params (o : Output) : (State.emit o s).params = s.params := rfl
@[simp] theorem emit_input (o : Output) : (State.emit o s).input = s.input := rfl
@[simp] theorem emit_out (o : Output) : (State.emit o s).out = s.out ++ [o] := rfl
@[simp] theorem emit_earlier (o : Output) : (State.emit o s).earlier = s.earlier := rfl
@[simp] theorem emit_draws (o : Output) : (State.emit o s).draws = s.draws := rfl
@[simp] theorem emit_resets (o : Output) : (State.emit o s).resets = s.resets := rfl
@[simp] theorem emit_txSilentAt (o : Output) : (State.emit o s).txSilentAt = s.txSilentAt := rfl

/-! beginRun -/

@[simp] theorem beginRun_cfg : (State.beginRun s).cfg = s.cfg := rfl
@[simp] theorem beginRun_cur : (State.beginRun s).cur = s.cur := rfl
@[simp] theorem beginRun_pend : (State.beginRun s).pend = s.pend := rfl
@[simp] theorem beginRun_buf : (State.beginRun s).buf = s.buf := rfl
@[simp] theorem beginRun_halted : (State.beginRun s).halted = s.halted := rfl
@[simp] theorem beginRun_fault : (State.beginRun s).fault = s.fault := rfl
@[simp] theorem beginRun_busy : (State.beginRun s).busy = s.busy := rfl
@[simp] theorem beginRun_constructed : (State.beginRun s).constructed = s.constructed := rfl
@[simp] theorem beginRun_params : (State.beginRun s).params = s.params := rfl
@[simp] theorem beginRun_input : (State.beginRun s).input = s.input := rfl
@[simp] theorem beginRun_out : (State.beginRun s).out = [] := rfl
@[simp] theorem beginRun_earlier : (State.beginRun s).earlier = s.earlier ++ s.out := rfl
@[simp] theorem beginRun_draws : (State.beginRun s).draws = s.draws := rfl
@[simp] theorem beginRun_resets : (State.beginRun s).resets = s.resets := rfl
@[simp] theorem beginRun_txSilentAt : (State.beginRun s).txSilentAt = s.txSilentAt := rfl

/-! nextDraw -/

@[simp] theorem nextDraw_cfg : (State.nextDraw s).cfg = s.cfg := rfl
@[simp] theorem nextDraw_cur : (State.nextDraw s).cur = s.cur := rfl
@[simp] theorem nextDraw_pend : (State.nextDraw s).pend = s.pend := rfl
@[simp] theorem nextDraw_buf : (State.nextDraw s).buf = s.buf := rfl
@[simp] theorem nextDraw_halted : (State.nextDraw s).halted = s.halted := rfl
@[simp] theorem nextDraw_fault : (State.nextDraw s).fault = s.fault := rfl
@[simp] theorem nextDraw_busy : (State.nextDraw s).busy = s.busy := rfl
@[simp] theorem nextDraw_constructed : (State.nextDraw s).constructed = s.constructed := rfl
@[simp] theorem nextDraw_params : (State.nextDraw s).params = s.params := rfl
@[simp] theorem nextDraw_input : (State.nextDraw s).input = s.input := rfl
@[simp] theorem nextDraw_out : (State.nextDraw s).out = s.out := rfl
@[simp] theorem nextDraw_earlier : (State.nextDraw s).earlier = s.earlier := rfl
@[simp] theorem nextDraw_draws : (State.nextDraw s).draws = s.draws + 1 := rfl
@[simp] theorem nextDraw_resets : (State.nextDraw s).resets = s.resets := rfl
@[simp] theorem nextDraw_txSilentAt : (State.nextDraw s).txSilentAt = s.txSilentAt := rfl

/-! setBusy -/

@[simp] theorem setBusy_cfg : (State.setBusy s).cfg = s.cfg := rfl
@[simp] theorem setBusy_cur : (State.setBusy s).cur = s.cur := rfl
@[simp] theorem setBusy_pend : (State.setBusy s).pend = s.pend := rfl
@[simp] theorem setBusy_buf : (State.setBusy s).buf = s.buf := rfl
@[simp] theorem setBusy_halted : (State.setBusy s).halted = s.halted := rfl
@[simp] theorem setBusy_fault : (State.setBusy s).fault = s.fault := rfl
@[simp] theorem setBusy_busy : (State.setBusy s).busy = true := rfl
@[simp] theorem setBusy_constructed : (State.setBusy s).constructed = s.constructed := rfl
@[simp] theorem setBusy_params : (State.setBusy s).params = s.params := rfl
@[simp] theorem setBusy_input : (State.setBusy s).input = s.input := rfl
@[simp] theorem setBusy_out : (State.setBusy s).out = s.out := rfl
@[simp] theorem setBusy_earlier : (State.setBusy s).earlier = s.earlier := rfl
@[simp] theorem setBusy_draws : (State.setBusy s).draws = s.draws := rfl
@[simp] theorem setBusy_resets : (State.setBusy s).resets = s.resets := rfl
@[simp] theorem setBusy_txSilentAt : (State.setBusy s).txSilentAt = s.txSilentAt := rfl

/-! halt -/

@[simp] theorem halt_cfg : (State.halt s).cfg = s.cfg := rfl
@[simp] theorem halt_cur : (State.halt s).cur = s.cur := rfl
@[simp] theorem halt_pend : (State.halt s).pend = s.pend := rfl
@[simp] theorem halt_buf : (State.halt s).buf = s.buf := rfl
@[simp] theorem halt_halted : (State.halt s).halted = true := rfl
@[simp] theorem halt_fault : (State.halt s).fault = s.fault := rfl
@[simp] theorem halt_busy : (State.halt s).busy = s.busy := rfl
@[simp] theorem halt_constructed : (State.halt s).constructed = s.constructed := rfl
@[simp] theorem halt_params : (State.halt s).params = s.params := rfl
@[simp] theorem halt_input : (State.halt s).input = s.input := rfl
@[simp] theorem halt_out : (State.halt s).out = s.out := rfl
@[simp] theorem halt_earlier : (State.halt s).earlier = s.earlier := rfl
@[simp] theorem halt_draws : (State.halt s).draws = s.draws := rfl
@[simp] theorem halt_resets : (State.halt s).resets = s.resets := rfl
@[simp] theorem halt_txSilentAt : (State.halt s).txSilentAt = s.txSilentAt := rfl

/-! raiseFault -/

@[simp] theorem raiseFault_cfg (f : FaultCause) (info : Nat) : (State.raiseFault f info s).cfg = s.cfg := rfl
@[simp] theorem raiseFault_cur (f : FaultCause) (info : Nat) : (State.raiseFault f info s).cur = s.cur := rfl
@[simp] theorem raiseFault_pend (f : FaultCause) (info : Nat) : (State.raiseFault f info s).pend = s.pend := rfl
@[simp] theorem raiseFault_buf (f : FaultCause) (info : Nat) : (State.raiseFault f info s).buf = s.buf := rfl
@[simp] theorem raiseFault_halted (f : FaultCause) (info : Nat) : (State.raiseFault f info s).halted = s.halted := rfl
@[simp] theorem raiseFault_fault (f : FaultCause) (info : Nat) : (State.raiseFault f info s).fault = f := rfl
@[simp] theorem raiseFault_busy (f : FaultCause) (info : Nat) : (State.raiseFault f info s).busy = s.busy := rfl
@[simp] theorem raiseFault_constructed (f : FaultCause) (info : Nat) : (State.raiseFault f info s).constructed = s.constructed := rfl
@[simp] theorem raiseFault_params (f : FaultCause) (info : Nat) : (State.raiseFault f info s).params = s.params := rfl
@[simp] theorem raiseFault_input (f : FaultCause) (info : Nat) : (State.raiseFault f info s).input = s.input := rfl
@[simp] theorem raiseFault_out (f : FaultCause) (info : Nat) : (State.raiseFault f info s).out = s.out := rfl
@[simp] theorem raiseFault_earlier (f : FaultCause) (info : Nat) : (State.raiseFault f info s).earlier = s.earlier := rfl
@[simp] theorem raiseFault_draws (f : FaultCause) (info : Nat) : (State.raiseFault f info s).draws = s.draws := rfl
@[simp] theorem raiseFault_resets (f : FaultCause) (info : Nat) : (State.raiseFault f info s).resets = s.resets := rfl
@[simp] theorem raiseFault_txSilentAt (f : FaultCause) (info : Nat) : (State.raiseFault f info s).txSilentAt = s.txSilentAt := rfl

/-! resetRegisters -/

@[simp] theorem resetRegisters_cfg (c : Cfg) : (State.resetRegisters c s).cfg = c := rfl
@[simp] theorem resetRegisters_cur (c : Cfg) : (State.resetRegisters c s).cur = Config.curAfterReset s.resets := rfl
@[simp] theorem resetRegisters_pend (c : Cfg) : (State.resetRegisters c s).pend = false := rfl
@[simp] theorem resetRegisters_buf (c : Cfg) : (State.resetRegisters c s).buf = [] := rfl
@[simp] theorem resetRegisters_halted (c : Cfg) : (State.resetRegisters c s).halted = false := rfl
@[simp] theorem resetRegisters_fault (c : Cfg) : (State.resetRegisters c s).fault = .none := rfl
@[simp] theorem resetRegisters_busy (c : Cfg) : (State.resetRegisters c s).busy = false := rfl
@[simp] theorem resetRegisters_constructed (c : Cfg) : (State.resetRegisters c s).constructed = true := rfl
@[simp] theorem resetRegisters_params (c : Cfg) : (State.resetRegisters c s).params = s.params := rfl
@[simp] theorem resetRegisters_input (c : Cfg) : (State.resetRegisters c s).input = s.input := rfl
@[simp] theorem resetRegisters_out (c : Cfg) : (State.resetRegisters c s).out = s.out := rfl
@[simp] theorem resetRegisters_earlier (c : Cfg) : (State.resetRegisters c s).earlier = s.earlier := rfl
@[simp] theorem resetRegisters_draws (c : Cfg) : (State.resetRegisters c s).draws = s.draws := rfl
@[simp] theorem resetRegisters_resets (c : Cfg) : (State.resetRegisters c s).resets = s.resets + 1 := rfl
@[simp] theorem resetRegisters_txSilentAt (c : Cfg) : (State.resetRegisters c s).txSilentAt = s.txSilentAt := rfl

end

end Sys2Proof.Machine
end

