-- ==== Sys2Proof/Laws/Ops.lean ====
section
/-!
SUPPORT. For each shared operation, once, everything it can answer: the guards, the capacity check, the dispatch, the
taking of an event; and each meaning as one equation over the state's fields.
-/

namespace Sys2Proof.Machine

/-- A guarded meaning goes on exactly when the block is accepting. -/
theorem guarded_next {s t : State} {go : Result} (h : guarded s go = .next t) : s.accepting = true ∧ go = .next t := by
  unfold guarded at h
  split at h
  · exact ⟨‹_›, h⟩
  · cases h

theorem guarded_of_accepting {s : State} {go : Result} (h : s.accepting = true) : guarded s go = go := by
  simp [guarded, h]

theorem guarded_of_not_accepting {s : State} {go : Result} (h : s.accepting = false) :
    guarded s go = .refused s.whyRefused := by
  simp [guarded, h]

/-- What accepting means, field by field. -/
theorem accepting_iff (s : State) :
    s.accepting = true ↔ s.constructed = true ∧ s.busy = false ∧ s.halted = false ∧ s.fault = .none := by
  simp [State.accepting, and_assoc]

theorem requirePend_next {b : Bool} {s t : State} {go : Result} (h : requirePend b s go = .next t) :
    s.pend = b ∧ go = .next t := by
  unfold requirePend at h
  split at h
  · exact ⟨‹_›, h⟩
  · cases h

theorem requirePend_of_eq {b : Bool} {s : State} {go : Result} (h : s.pend = b) : requirePend b s go = go := by
  simp [requirePend, h]

/-- There is room for `k` words exactly when a finite `BUF_DEPTH` leaves it. -/
theorem roomFor_iff (k : Nat) (s : State) :
    s.roomFor k = true ↔ ∀ d, s.params.bufDepth = some d → s.buf.length + k ≤ d := by
  unfold State.roomFor
  cases h : s.params.bufDepth <;> simp

/-- The capacity check goes on, or raises `BufOverflow` and changes nothing else. -/
theorem withRoom_next {k : Nat} {s t : State} {go : Result} (h : withRoom k s go = .next t) :
    (s.roomFor k = true ∧ go = .next t) ∨ (s.roomFor k = false ∧ t = s.raiseFault .bufOverflow s.len) := by
  unfold withRoom at h
  cases hr : s.roomFor k <;> simp only [hr] at h
  · cases h
    exact .inr ⟨rfl, rfl⟩
  · exact .inl ⟨rfl, h⟩

theorem withRoom_of_room {k : Nat} {s : State} {go : Result} (h : s.roomFor k = true) : withRoom k s go = go := by
  simp [withRoom, h]

theorem withRoom_of_full {k : Nat} {s : State} {go : Result} (h : s.roomFor k = false) :
    withRoom k s go = .next (s.raiseFault .bufOverflow s.len) := by
  simp [withRoom, h]

/-- The words of a bit's symbol: one mark for both bits (spec/10_state.md R15). -/
theorem bitSym_words (c : Cfg) (b : Bool) :
    [(lut c (if b then .one else .zero)).1, (lut c (if b then .one else .zero)).2] =
      [c.bitMarkLen, if b then c.bitOneSpaceLen else c.bitZeroSpaceLen] := by
  cases b <;> rfl

/-- The words of the symbols of a byte are the 16 words of the wire-order law. -/
theorem expandByte_words (c : Cfg) (b : Byte) :
    ((expandByte b c.bitOrderSwap).flatMap fun sym => [(lut c sym).1, (lut c sym).2]) = wireWords c b := by
  unfold expandByte
  rw [List.flatMap_map]
  simp only [bitSym_words]
  cases h : c.bitOrderSwap <;> simp [positions, bitIndex, wireWords, h, List.range_succ]

/-- What completing a byte does. -/
theorem completeByte_eq (n : Nibble) (s : State) :
    s.completeByte n =
      { s with
        cur := withLowNibble s.cur n
        buf := s.buf ++ wireWords s.cfg (withLowNibble s.cur n)
        pend := false } := by
  unfold State.completeByte
  simp only [appendSyms_eq]
  simp only [setCur_cfg, setCur_buf, setCur_cur, expandByte_words]
  rfl

/-- The read of `EOT` always finds its words. -/
theorem dispatchBatch_eq (s : State) : dispatchBatch s = .next (s.transmit s.buf) := by
  simp [dispatchBatch]

/-- What happens once the Transmitter has answered. -/
theorem afterTransmit_eq (st : TxStatus) (s : State) :
    s.afterTransmit st =
      { s with
        buf := []
        out := s.out ++ statusReports st
        pend := if s.params.eotClearsPend then false else s.pend
        draws := s.draws + 1 } := by
  cases h : s.params.eotClearsPend <;>
    simp [State.afterTransmit, State.eotPend, State.reportStatus, State.clearBuf, State.setBuf, State.nextDraw,
      State.setPend, h]

/-- The Transmitter answers unless this draw is the one at which it is silent. -/
theorem txAnswers_iff (s : State) : s.txAnswers = true ↔ s.txSilentAt ≠ some s.draws := by
  simp [State.txAnswers]

/-- The reports of a drawn status word: one when it is not zero (spec/60_exceptions.md R69). -/
theorem statusReports_ofWord (w : Nat) :
    statusReports (TxStatus.ofWord w) = if w = 0 then [] else [.report .txFailure] := by
  unfold TxStatus.ofWord
  split <;> rfl

/-- The request of a batch, as an output event. -/
def requestOf (train : List Duration) : Output := .tx ⟨train, 38000, ⟨1, 2⟩⟩

/-- An answered transmission. -/
theorem transmit_of_answers {s : State} (train : List Duration) (h : s.txSilentAt ≠ some s.draws) :
    s.transmit train =
      { s with
        buf := []
        out := s.out ++ [requestOf train] ++ statusReports (TxStatus.ofWord (Config.txStatusWord s.draws))
        pend := if s.params.eotClearsPend then false else s.pend
        draws := s.draws + 1 } := by
  rw [State.transmit, if_pos ((txAnswers_iff s).2 h), afterTransmit_eq]
  rfl

/-- A transmission that is never answered. -/
theorem transmit_of_silent {s : State} (train : List Duration) (h : s.txSilentAt = some s.draws) :
    s.transmit train = { s with out := s.out ++ [requestOf train], busy := true } := by
  rw [State.transmit, if_neg (by simp [txAnswers_iff, h])]
  rfl

/-- `NIBH` in one equation. -/
theorem execNibh_eq {n : Nibble} {s : State} (ha : s.accepting = true) (hp : s.pend = false) :
    execNibh n s = .next { s with cur := highNibble n, pend := true } := by
  simp [execNibh, guarded_of_accepting ha, requirePend_of_eq hp, State.setCur, State.setPend]

/-- `NIBL` with room, in one equation. -/
theorem execNibl_eq {n : Nibble} {s : State} (ha : s.accepting = true) (hp : s.pend = true)
    (hr : s.roomFor 16 = true) : execNibl n s = .next (s.completeByte n) := by
  simp [execNibl, guarded_of_accepting ha, requirePend_of_eq hp, withRoom_of_room hr]

/-- What `SEP` appends. -/
theorem appendSyms_sep (s : State) :
    s.appendSyms [.tail, .hdr] = { s with buf := s.buf ++ (tailWords s.cfg ++ headerWords s.cfg) } := by
  simp [appendSyms_eq, lut, tailWords, headerWords, State.setBuf]

/-- `SEP` with room, in one equation. -/
theorem execSep_eq {s : State} (ha : s.accepting = true) (hr : s.roomFor 4 = true) :
    execSep s = .next { s with buf := s.buf ++ (tailWords s.cfg ++ headerWords s.cfg) } := by
  rw [execSep, guarded_of_accepting ha, withRoom_of_room hr, appendSyms_sep]

/-- What `EOT` appends. -/
theorem appendSym_tail (s : State) : s.appendSym .tail = { s with buf := s.buf ++ tailWords s.cfg } := by
  simp [appendSym_eq, lut, tailWords, State.setBuf]

/-- The state an `EOT` with room leaves when the Transmitter answers. -/
def eotAnswered (s : State) : State :=
  { s with
    buf := []
    out := s.out ++ requestOf (s.buf ++ tailWords s.cfg) ::
      statusReports (TxStatus.ofWord (Config.txStatusWord s.draws))
    pend := if s.params.eotClearsPend then false else s.pend
    draws := s.draws + 1 }

/-- The state an `EOT` with room leaves when the Transmitter never answers. -/
def eotSilent (s : State) : State :=
  { s with
    buf := s.buf ++ tailWords s.cfg
    out := s.out ++ [requestOf (s.buf ++ tailWords s.cfg)]
    busy := true }

/-- `EOT` with room, by the Transmitter's answer. -/
theorem execEot_eq {s : State} (ha : s.accepting = true) (hr : s.roomFor 2 = true) :
    execEot s = .next (if s.txSilentAt = some s.draws then eotSilent s else eotAnswered s) := by
  rw [execEot, guarded_of_accepting ha, withRoom_of_room hr, appendSym_tail, dispatchBatch_eq]
  split
  · rw [transmit_of_silent _ (by assumption)]
    rfl
  · rw [transmit_of_answers _ (by assumption)]
    simp [eotAnswered]

/-- The state `RST` leaves, in one equation. -/
theorem takeRst_eq (c : Cfg) (s : State) :
    takeRst c s =
      { cfg := c, cur := Config.curAfterReset s.resets, pend := false, buf := headerWords c, halted := false,
        fault := .none, busy := false, constructed := true, params := s.params, input := s.input, out := [],
        earlier := s.earlier ++ s.out, draws := s.draws, resets := s.resets + 1, txSilentAt := s.txSilentAt } := by
  simp [takeRst, appendSym_eq, State.resetRegisters, State.beginRun, State.setBuf, lut, headerWords]

/-- Everything `NIBH` can do when it goes on. -/
theorem exec_nibh_next {n : Nibble} {z : Zone} {s t : State} (h : exec (.nibh n z) s = .next t) :
    s.accepting = true ∧ s.pend = false ∧ t = { s with cur := highNibble n, pend := true } := by
  obtain ⟨ha, h1⟩ := guarded_next h
  obtain ⟨hp, h2⟩ := requirePend_next h1
  cases h2
  exact ⟨ha, hp, rfl⟩

/-- Everything `NIBL` can do when it goes on. -/
theorem exec_nibl_next {n : Nibble} {z : Zone} {s t : State} (h : exec (.nibl n z) s = .next t) :
    s.accepting = true ∧ s.pend = true ∧
      ((s.roomFor 16 = true ∧ t =
          { s with
            cur := withLowNibble s.cur n
            buf := s.buf ++ wireWords s.cfg (withLowNibble s.cur n)
            pend := false }) ∨
        (s.roomFor 16 = false ∧ t = { s with fault := .bufOverflow })) := by
  obtain ⟨ha, h1⟩ := guarded_next h
  obtain ⟨hp, h2⟩ := requirePend_next h1
  rcases withRoom_next h2 with ⟨hr, h3⟩ | ⟨hr, rfl⟩
  · cases h3
    exact ⟨ha, hp, .inl ⟨hr, completeByte_eq n s⟩⟩
  · exact ⟨ha, hp, .inr ⟨hr, rfl⟩⟩

/-- Everything `SEP` can do when it goes on. -/
theorem exec_sep_next {s t : State} (h : exec .sep s = .next t) :
    s.accepting = true ∧
      ((s.roomFor 4 = true ∧ t = { s with buf := s.buf ++ (tailWords s.cfg ++ headerWords s.cfg) }) ∨
        (s.roomFor 4 = false ∧ t = { s with fault := .bufOverflow })) := by
  obtain ⟨ha, h1⟩ := guarded_next h
  rcases withRoom_next h1 with ⟨hr, h2⟩ | ⟨hr, rfl⟩
  · cases h2
    exact ⟨ha, .inl ⟨hr, appendSyms_sep s⟩⟩
  · exact ⟨ha, .inr ⟨hr, rfl⟩⟩

/-- Everything `EOT` can do when it goes on. -/
theorem exec_eot_next {s t : State} (h : exec .eot s = .next t) :
    s.accepting = true ∧
      ((s.roomFor 2 = true ∧ s.txSilentAt ≠ some s.draws ∧ t = eotAnswered s) ∨
        (s.roomFor 2 = true ∧ s.txSilentAt = some s.draws ∧ t = eotSilent s) ∨
        (s.roomFor 2 = false ∧ t = { s with fault := .bufOverflow })) := by
  have ha := (guarded_next h).1
  cases hr : s.roomFor 2
  · have h1 := (guarded_next h).2
    rw [withRoom_of_full hr] at h1
    cases h1
    exact ⟨ha, .inr (.inr ⟨rfl, rfl⟩)⟩
  · have h1 : execEot s = .next t := h
    rw [execEot_eq ha hr] at h1
    split at h1 <;> cases h1
    · exact ⟨ha, .inr (.inl ⟨rfl, by assumption, rfl⟩)⟩
    · exact ⟨ha, .inl ⟨rfl, by assumption, rfl⟩⟩

/-- Everything `IGN` can do when it goes on. -/
theorem exec_ign_next {c : Byte} {s t : State} (h : exec (.ign c) s = .next t) : s.accepting = true ∧ t = s := by
  obtain ⟨ha, h1⟩ := guarded_next h
  cases h1
  exact ⟨ha, rfl⟩

/-- No instruction writes the offers. -/
theorem exec_keeps_input {i : Instr} {s t : State} (h : exec i s = .next t) : t.input = s.input := by
  cases i with
  | nibh n z => obtain ⟨-, -, rfl⟩ := exec_nibh_next h; rfl
  | nibl n z => obtain ⟨-, -, ⟨-, rfl⟩ | ⟨-, rfl⟩⟩ := exec_nibl_next h <;> rfl
  | sep => obtain ⟨-, ⟨-, rfl⟩ | ⟨-, rfl⟩⟩ := exec_sep_next h <;> rfl
  | eot => obtain ⟨-, ⟨-, -, rfl⟩ | ⟨-, -, rfl⟩ | ⟨-, rfl⟩⟩ := exec_eot_next h <;> rfl
  | ign c => obtain ⟨-, rfl⟩ := exec_ign_next h; rfl

/-- No instruction reads the offers. -/
theorem exec_next_withOffers {i : Instr} {s t : State} (h : exec i s = .next t) (l : List Offer) :
    exec i { s with input := l } = .next { t with input := l } := by
  cases i with
  | nibh n z =>
    obtain ⟨ha, hp, rfl⟩ := exec_nibh_next h
    exact execNibh_eq (by exact ha) hp
  | nibl n z =>
    obtain ⟨ha, hp, ⟨hr, rfl⟩ | ⟨hr, rfl⟩⟩ := exec_nibl_next h
    · simp only [exec, execNibl_eq (n := n) (s := { s with input := l }) (by exact ha) hp hr, completeByte_eq]
    · simp only [exec, execNibl]
      rw [guarded_of_accepting (by exact ha), requirePend_of_eq (by exact hp), withRoom_of_full (by exact hr)]
      rfl
  | sep =>
    obtain ⟨ha, ⟨hr, rfl⟩ | ⟨hr, rfl⟩⟩ := exec_sep_next h
    · simp only [exec, execSep_eq (s := { s with input := l }) (by exact ha) hr]
    · simp only [exec, execSep]
      rw [guarded_of_accepting (by exact ha), withRoom_of_full (by exact hr)]
      rfl
  | eot =>
    obtain ⟨ha, ⟨hr, hs, rfl⟩ | ⟨hr, hs, rfl⟩ | ⟨hr, rfl⟩⟩ := exec_eot_next h
    · simp only [exec, execEot_eq (s := { s with input := l }) (by exact ha) hr]
      rw [if_neg hs]
      rfl
    · simp only [exec, execEot_eq (s := { s with input := l }) (by exact ha) hr]
      rw [if_pos hs]
      rfl
    · simp only [exec, execEot]
      rw [guarded_of_accepting (by exact ha), withRoom_of_full (by exact hr)]
      rfl
  | ign c =>
    obtain ⟨ha, rfl⟩ := exec_ign_next h
    exact guarded_of_accepting ha

/-- Taking an event changes nothing but the offers. -/
theorem takeEvent_eos_input {s t : State} (h : takeEvent s = .eos t) : ∃ l, t = { s with input := l } := by
  unfold takeEvent at h
  split at h
  · cases h
  · split at h <;> cases h
    exact ⟨_, rfl⟩

/-- Taking an event changes nothing but the offers. -/
theorem takeEvent_char_input {s t : State} {c : Byte} (h : takeEvent s = .char c t) :
    ∃ l, t = { s with input := l } := by
  unfold takeEvent at h
  split at h
  · cases h
  · split at h <;> cases h
    exact ⟨_, rfl⟩

/-- Taking an event changes nothing but the offers. -/
theorem takeEvent_rst_input {s t : State} {c : Cfg} (h : takeEvent s = .rst c t) :
    ∃ l, t = { s with input := l } := by
  unfold takeEvent at h
  split at h
  · cases h
  · split at h <;> cases h <;> exact ⟨_, rfl⟩

/-- Everything `takeEvent` can answer. -/
theorem takeEvent_cases (s : State) :
    (s.busy = true ∧ takeEvent s = .outstanding) ∨
      (s.busy = false ∧
        ((s.input = [] ∧ takeEvent s = .idle) ∨
          (∃ c rest, s.input = .reset c :: rest ∧ takeEvent s = .rst c (s.setInput rest)) ∨
          (∃ c e rest, s.input = .resetAndStream c e :: rest ∧
            takeEvent s = .rst c (s.setInput (.stream e :: rest))) ∨
          (∃ rest, s.input = .stream .eos :: rest ∧ takeEvent s = .eos (s.setInput rest)) ∨
          (∃ c rest, s.input = .stream (.char c) :: rest ∧ takeEvent s = .char c (s.setInput rest)))) := by
  unfold takeEvent
  cases hb : s.busy
  · right
    rcases hi : s.input with _ | ⟨_ | _ | _, rest⟩
    · simp
    · rename_i e
      cases e <;> simp
    · simp
    · simp
  · simp

/-- Everything a step that goes on can have done. -/
theorem step_next_cases {s s' : State} (h : step s = .next s') :
    (takeEvent s = .outstanding ∧ s' = s) ∨ (takeEvent s = .idle ∧ s' = s) ∨
      (∃ c t, takeEvent s = .rst c t ∧ s' = takeRst c t) ∨
      (∃ t, takeEvent s = .eos t ∧ t.accepting = true ∧ s' = t.halt) ∨
      (∃ c t, takeEvent s = .char c t ∧ exec (instrAt t c) t = .next s') := by
  unfold step at h
  split at h
  · cases h; exact .inl ⟨‹_›, rfl⟩
  · cases h; exact .inr (.inl ⟨‹_›, rfl⟩)
  · cases h; exact .inr (.inr (.inl ⟨_, _, ‹_›, rfl⟩))
  · obtain ⟨ha, h1⟩ := guarded_next h
    cases h1
    exact .inr (.inr (.inr (.inl ⟨_, ‹_›, ha, rfl⟩)))
  · exact .inr (.inr (.inr (.inr ⟨_, _, ‹_›, h⟩)))

end Sys2Proof.Machine
end

