-- ==== Sys2Proof/Laws/PerInstr.lean ====
section
/-!
SUPPORT. What holds of every instruction as syntax, one lemma per constructor.
-/

namespace Sys2Proof.Laws.OneCharacter

/-- Every instruction is one character long (spec/30_encoding.md R43, R49). -/
def Statement (i : Instr) : Prop := (encode i).length = 1

theorem nibh (n : Nibble) (z : Zone) : Statement (.nibh n z) := rfl

theorem nibl (n : Nibble) (z : Zone) : Statement (.nibl n z) := rfl

theorem sep : Statement .sep := rfl

theorem eot : Statement .eot := rfl

theorem ign (c : Byte) : Statement (.ign c) := rfl

end Sys2Proof.Laws.OneCharacter
end

