-- ==== Sys2Proof/Laws/Run.lean ====
section
/-!
SUPPORT. Runs of several steps, and the requests among the output events.
-/

namespace Sys2Proof.Machine

theorem run_zero (s : State) : run 0 s = .next s := rfl

/-- A run goes on from where its first step leads. -/
theorem run_succ_of_next {s t : State} (k : Nat) (h : step s = .next t) : run (k + 1) s = run k t := by
  simp [run, h]

/-- A run that is refused at its first step. -/
theorem run_succ_of_refused {s : State} {r : Refusal} (k : Nat) (h : step s = .refused r) :
    run (k + 1) s = .refused r := by
  simp [run, h]

/-- A run that faults at its first step. -/
theorem run_succ_of_fault {s : State} {r : Fault} (k : Nat) (h : step s = .fault r) :
    run (k + 1) s = .fault r := by
  simp [run, h]

/-- The host's run of any core goes on from where its first step leads. -/
theorem hostRun_of_next (M : Host.Core) (k : Nat) (s t : M.State) (h : M.step s = .next t) :
    M.run (k + 1) s = M.run k t := by
  rw [Host.Core.run.eq_2, h]

theorem hostRun_of_fault (M : Host.Core) (k : Nat) (s : M.State) (r : M.Fault) (h : M.step s = .fault r) :
    M.run (k + 1) s = .fault r := by
  rw [Host.Core.run.eq_2, h]

theorem hostRun_of_refused (M : Host.Core) (k : Nat) (s : M.State) (r : M.Refusal)
    (h : M.step s = .refused r) : M.run (k + 1) s = .refused r := by
  rw [Host.Core.run.eq_2, h]

/-- The model's run is the host's run of the core. -/
theorem run_eq_core (k : Nat) (s : State) : run k s = Host.Core.run Sys2Proof.core k s := by
  induction k generalizing s with
  | zero => rfl
  | succ k ih =>
    cases h : step s with
    | next t => exact ((run_succ_of_next k h).trans (ih t)).trans (hostRun_of_next core k s t h).symm
    | fault r => exact (run_succ_of_fault k h).trans (hostRun_of_fault core k s r h).symm
    | refused r => exact (run_succ_of_refused k h).trans (hostRun_of_refused core k s r h).symm

/-- Two runs one after the other are one run. -/
theorem run_add {s t : State} (j k : Nat) (h : run j s = .next t) :
    run (j + k) s = run k t := by
  induction j generalizing s with
  | zero =>
    cases h
    rw [Nat.zero_add]
  | succ j ih =>
    have e : j + 1 + k = j + k + 1 := by omega
    cases hs : step s with
    | next u =>
      rw [run_succ_of_next j hs] at h
      rw [e, run_succ_of_next (j + k) hs]
      exact ih h
    | fault r => rw [run_succ_of_fault j hs] at h; cases h
    | refused r => rw [run_succ_of_refused j hs] at h; cases h

/-- Everything sent is what the earlier runs sent and what this one has. -/
@[simp] theorem sent_eq (s : State) : s.sent = s.earlier ++ s.out := rfl

@[simp] theorem requests_nil : requests [] = [] := rfl

@[simp] theorem requests_append (a b : List Output) : requests (a ++ b) = requests a ++ requests b := by
  simp [requests]

@[simp] theorem requests_tx (r : TxRequest) (l : List Output) : requests (.tx r :: l) = r :: requests l := rfl

@[simp] theorem requests_report (k : ReportKind) (l : List Output) :
    requests (.report k :: l) = requests l := rfl

/-- A status makes no request. -/
@[simp] theorem requests_statusReports (st : TxStatus) : requests (statusReports st) = [] := by
  cases st <;> rfl

@[simp] theorem requests_requestOf (train : List Duration) (l : List Output) :
    requests (requestOf train :: l) = ⟨train, 38000, ⟨1, 2⟩⟩ :: requests l := rfl

/-- A byte is 16 words (spec/40_hex_digits.md R54). -/
@[simp] theorem wireWords_length (c : Cfg) (b : Byte) : (wireWords c b).length = 16 := by
  simp [wireWords, List.range_succ]

end Sys2Proof.Machine
end

