-- ==== Sys2Proof/Tests/Slice0.lean ====
section
/-!
SUPPORT. The model's own tests: expected results come from spec/95_test_vectors.md or from the tables of
spec/30_encoding.md, and for every statement with hypotheses a witness that meets them.
-/

namespace Sys2Proof.Tests

open Sys2Proof.Machine

/-! ### Small states -/

/-- `CFG_SWAP` of spec/95_test_vectors.md. -/
def cfgSwap : Cfg := { Config.cfgDefault with bitOrderSwap := true }

/-- `CFG_B` of spec/95_test_vectors.md. -/
def cfgB : Cfg := ⟨9000, 4500, 560, 560, 1690, 560, 40000, true⟩

/-- `BUF_DEPTH` = `d`, the other parameters at their defaults. -/
def depth (d : Nat) : Params := { Config.paramsDefault with bufDepth := some d }

/-- Reset with `c`, then `(pend, cur)` as given and `words` more words in the buffer. -/
def at_ (p : Params) (c : Cfg) (pend : Bool) (cur : Byte) (words : List Duration) : State :=
  { State.resetWith p c with pend := pend, cur := cur, buf := [c.headerMarkLen, c.headerSpaceLen] ++ words }

/-- Reset with the defaults and these offers. -/
def offering (l : List Offer) : State := { State.reset with input := l }

/-- `f` of the next state. -/
def of {α : Type} (f : State → α) (r : Result) : Option α :=
  match r with
  | .next s => some (f s)
  | .fault _ => none
  | .refused _ => none

/-- The reason of a refusal. -/
def why (r : Result) : Option Refusal :=
  match r with
  | .next _ => none
  | .fault _ => none
  | .refused q => some q

/-! ### Well-formedness: each check refuses its ill-formed term -/

theorem test_illformed_nibh_letter_value_in_decimal : (Instr.nibh 10 .decimal).wellFormed = false := by decide
theorem test_illformed_nibh_digit_value_in_upper : (Instr.nibh 9 .upper).wellFormed = false := by decide
theorem test_illformed_nibl_digit_value_in_lower : (Instr.nibl 0 .lower).wellFormed = false := by decide
theorem test_illformed_ign_comma : (Instr.ign 0x2C).wellFormed = false := by decide
theorem test_wrong_mode_nibh : (Instr.nibh 4 .decimal).inMode true = false := by decide
theorem test_wrong_mode_nibl : (Instr.nibl 4 .decimal).inMode false = false := by decide

/-! ### Decoding (spec/30_encoding.md R44, R45; vectors V1 to V3) -/

/-- V1a to V1f. -/
theorem test_decode_v1 :
    [0x30, 0x39, 0x41, 0x46, 0x61, 0x66].map classify =
      [.hex 0 .decimal, .hex 9 .decimal, .hex 10 .upper, .hex 15 .upper, .hex 10 .lower, .hex 15 .lower] := by
  decide

/-- V2a to V2f: the codes on either side of each hex range. -/
theorem test_decode_v2 : [0x2F, 0x3A, 0x40, 0x47, 0x60, 0x67].all (fun c => classify c = .other) = true := by decide

/-- V3a, V3b. -/
theorem test_decode_v3_delimiters : classify 0x2C = .comma ∧ classify 0x0A = .newline := by decide

/-- V3c to V3l. -/
theorem test_decode_v3_others :
    [0x0D, 0x00, 0x20, 0x78, 0x80, 0xFF, 0x2B, 0x2D, 0x0B, 0x09].all (fun c => classify c = .other) = true := by
  decide

/-- NIBH, from the table row `00110100`. -/
theorem test_word_nibh : decode false [0b00110100] = .instr (.nibh 4 .decimal) [] := by decide

/-- NIBL, from the table row `01100110`, with the next character left over. -/
theorem test_word_nibl : decode true [0b01100110, 0x0A] = .instr (.nibl 15 .lower) [0x0A] := by decide

/-- SEP, from the table row `00101100`. -/
theorem test_word_sep : decode true [0b00101100] = .instr .sep [] := by decide

/-- EOT, from the table row `00001010`. -/
theorem test_word_eot : decode false [0b00001010] = .instr .eot [] := by decide

/-- IGN: the carriage return `00001101` (R47). -/
theorem test_word_ign : decode true [0b00001101] = .instr (.ign 0x0D) [] := by decide

theorem test_no_character : decode false [] = .reject .noCharacter := by decide

/-- The 22 codes of the table's NIBH rows with their `n`. -/
theorem test_encode_digits :
    ([0, 1, 2, 3, 4, 5, 6, 7, 8, 9].map fun n => encodeChar (.nibh n .decimal)) =
      [0x30, 0x31, 0x32, 0x33, 0x34, 0x35, 0x36, 0x37, 0x38, 0x39] ∧
    ([10, 11, 12, 13, 14, 15].map fun n => encodeChar (.nibl n .upper)) = [0x41, 0x42, 0x43, 0x44, 0x45, 0x46] ∧
    ([10, 11, 12, 13, 14, 15].map fun n => encodeChar (.nibh n .lower)) = [0x61, 0x62, 0x63, 0x64, 0x65, 0x66] := by
  decide

theorem test_table_word : decodeTableWord 8 0x2C = some .sep ∧ decodeTableWord 0 0 = some (.ign 0) := by decide

/-! ### NIBH and NIBL (V5, V6, V7, V9b, V13) -/

theorem test_nibh_v5 :
    of (fun s => (s.pend, s.cur, s.len)) (exec (.nibh 15 .lower) State.reset) = some (true, 0xF0, 2) := by decide

/-- V6: the old `cur` has no effect. -/
theorem test_nibh_v6 :
    of (fun s => (s.pend, s.cur))
      (exec (.nibh 10 .upper) (at_ Config.paramsDefault Config.cfgDefault false 0x41 [])) = some (true, 0xA0) := by
  decide

theorem test_nibl_v7 :
    of (fun s => (s.pend, s.cur, s.buf.drop 2))
      (exec (.nibl 1 .decimal) (at_ Config.paramsDefault Config.cfgDefault true 0x40 [])) =
      some (false, 0x41, [440, 400, 440, 1300, 440, 400, 440, 400, 440, 400, 440, 400, 440, 400, 440, 1300]) := by
  decide

/-- V13: another configuration, least significant bit first. -/
theorem test_nibl_v13 :
    of (fun s => s.buf.drop 2) (exec (.nibl 2 .decimal) (at_ Config.paramsDefault cfgB true 0x10 [])) =
      some [560, 560, 560, 1690, 560, 560, 560, 560, 560, 1690, 560, 560, 560, 560, 560, 560] := by
  decide

/-- V9b, and C4: 0xA5 expands the same under both settings. -/
theorem test_expand_v9b_and_s2 :
    wireWords cfgSwap 0xA4 =
      [440, 400, 440, 400, 440, 1300, 440, 400, 440, 400, 440, 1300, 440, 400, 440, 1300] ∧
    wireWords cfgSwap 0xA5 = wireWords Config.cfgDefault 0xA5 := by
  decide

/-! ### SEP (V19, V21) -/

theorem test_sep_v19 :
    of (fun s => (s.pend, s.cur, s.buf)) (exec .sep (at_ Config.paramsDefault Config.cfgDefault true 0x10 [])) =
      some (true, 0x10, [3500, 1700, 440, 15000, 3500, 1700]) := by
  decide

theorem test_sep_v21 :
    of (fun s => s.buf.drop 2) (exec .sep (State.resetWith Config.paramsDefault cfgB)) =
      some [560, 40000, 9000, 4500] := by
  decide

/-! ### EOT (V22, V24, V25) -/

theorem test_eot_v22 :
    of (fun s => (s.buf, s.out.head?)) (exec .eot State.reset) =
      some ([], some (.tx ⟨[3500, 1700, 440, 15000], 38000, ⟨1, 2⟩⟩)) := by
  decide

/-- V24 with `EOT_CLEARS_PEND`: (0, 0x30, 0). -/
theorem test_eot_v24_clears :
    of (fun s => (s.pend, s.cur, s.len))
      (exec .eot (at_ ⟨none, none, true⟩ Config.cfgDefault true 0x30 [])) = some (false, 0x30, 0) := by
  decide

/-- V25: a failure makes one report and is otherwise the same as a success. -/
theorem test_failed_status_v25 :
    (State.reset.afterTransmit .failure).out = [.report .txFailure] ∧
    (State.reset.afterTransmit .success).out = [] ∧
    (State.reset.afterTransmit .failure).buf = (State.reset.afterTransmit .success).buf := by
  decide

/-! ### IGN (V15) and the wrong mode -/

theorem test_ign_v15 :
    of id (exec (.ign 0x0D) (at_ Config.paramsDefault Config.cfgDefault true 0x40 [])) =
      some (at_ Config.paramsDefault Config.cfgDefault true 0x40 []) := by
  decide

theorem test_wrong_mode_refused : why (exec (.nibl 1 .decimal) State.reset) = some .wrongMode := by decide

/-! ### EOS, refusal and RST (V28, V29, V30, V34) -/

theorem test_eos_v28 : of (fun s => (s.halted, s.out)) (step (offering [.stream .eos])) = some (true, []) := by decide

theorem test_halted_v29 :
    why (step { offering [.stream (.char 0x34)] with halted := true }) = some .afterEndOfStream := by
  decide

theorem test_rst_v30_v34 :
    of (fun s => (s.buf, s.pend, s.halted, s.out))
      (step { at_ Config.paramsDefault cfgB true 0x30 [1, 2] with
        halted := true, input := [.reset Config.cfgDefault] }) = some ([3500, 1700], false, false, []) := by
  decide

/-- R93: after `RST` the output is the new run's; P5: what was sent before it keeps its place in the order. -/
theorem test_rst_begins_a_run :
    of (fun s => (s.observe, s.sent))
      (step { offering [.reset cfgB] with halted := true, out := [.report .txFailure] }) =
      some (([], false, .none), [.report .txFailure]) := by
  decide

/-- R92: a Transmitter that is not going to answer does not answer after an `RST` either. -/
theorem test_rst_leaves_transmitter :
    of (fun s => (s.busy, s.len)) (exec .eot (takeRst cfgB { State.reset with txSilentAt := some 0 })) =
      some (true, 4) := by
  decide

/-- R80: the stream event offered with `RST` is still on offer afterwards. -/
theorem test_rst_first :
    of (fun s => (s.len, s.input)) (step { offering [.resetAndStream cfgB .eos] with halted := true }) =
      some (2, [.stream .eos]) := by
  decide

/-! ### BufOverflow (V35, V36, V37; `BUF_DEPTH` = 20) -/

theorem test_overflow_v36 :
    of (fun s => (s.fault, s.len, s.pend, s.cur))
      (exec (.nibl 2 .decimal) (at_ (depth 20) Config.cfgDefault true 0x40 (wireWords Config.cfgDefault 0x41))) =
      some (.bufOverflow, 18, true, 0x40) := by
  decide

theorem test_overflow_v37 :
    of (fun s => (s.fault, s.len))
      (exec .sep (at_ (depth 20) Config.cfgDefault false 0x41 (wireWords Config.cfgDefault 0x41))) =
      some (.bufOverflow, 18) := by
  decide

/-- V35: 18 + 2 = 20 fits exactly. -/
theorem test_fits_v35 :
    of (fun s => (s.fault, s.len))
      (exec .eot (at_ (depth 20) Config.cfgDefault false 0x41 (wireWords Config.cfgDefault 0x41))) =
      some (.none, 0) := by
  decide

/-! ### The host's placing of a character -/

theorem test_withFetchWord_runs :
    of (fun s => (s.cur, s.pend, s.input)) (step (State.reset.withFetchWord 8 0x41)) = some (0xA0, true, []) := by
  decide

/-! ### Witnesses: for each statement with hypotheses, concrete values that meet all of them -/

/-- A state with a nibble pending. -/
def pending : State := { State.reset with pend := true, cur := 0x40 }

/-- A state with `BUF_DEPTH` 4 in which only the header is in the buffer. -/
def tight : State := State.resetWith (depth 4) Config.cfgDefault

/-- A state whose Transmitter never answers. -/
def silent : State := { State.reset with txSilentAt := some 0 }

theorem witness_ClassesPartitionTheCodes :
    classify 0x39 = .hex 9 .decimal ∧ classify 0x2C = .comma ∧ classify 0x0A = .newline ∧ classify 0xFF = .other := by
  decide

theorem witness_NibbleValueOfEveryDigit :
    classify 0x30 = .hex 0 .decimal ∧ classify 0x46 = .hex 15 .upper ∧ classify 0x66 = .hex 15 .lower ∧
    0x41 ≤ (0x41 : Byte).toNat ∧ (0x41 : Byte).toNat ≤ 0x46 := by
  decide

theorem witness_PendSelectsTheHexInstruction :
    classify 0x61 = .hex 10 .lower ∧ classify 0x67 = .other := by
  decide

theorem witness_DecodeOfEncodeIsTheInstruction :
    (Instr.nibh 9 .decimal).wellFormed = true ∧ (Instr.nibh 9 .decimal).inMode false = true ∧
    (Instr.nibl 10 .lower).wellFormed = true ∧ (Instr.nibl 10 .lower).inMode true = true ∧
    (Instr.ign 0x0B).wellFormed = true ∧ (Instr.ign 0x0B).inMode true = true := by
  decide

theorem witness_StepRunsTheDecodedCharacter :
    (offering [.stream (.char 0x34)]).busy = false ∧
    (offering [.stream (.char 0x34)]).input = .stream (.char 0x34) :: [] := by
  decide

theorem witness_ResetGoesBeforeAStreamEvent :
    (offering [.reset cfgB]).busy = false ∧ (offering [.reset cfgB]).input = .reset cfgB :: [] ∧
    (offering [.resetAndStream cfgB .eos]).busy = false ∧
    (offering [.resetAndStream cfgB .eos]).input = .resetAndStream cfgB .eos :: [] := by
  decide

theorem witness_WaitingKeepsAllState :
    ({ State.reset with busy := true }).busy = true ∧ State.reset.busy = false ∧ State.reset.input = [] := by
  decide

theorem witness_StreamEventsRefusedUntilReset :
    (let s := { offering [.stream .eos] with constructed := false }
     s.busy = false ∧ s.input = .stream .eos :: [] ∧ s.constructed = false) ∧
    (let s := { offering [.stream (.char 0x34)] with halted := true }
     s.busy = false ∧ s.input = .stream (.char 0x34) :: [] ∧ s.constructed = true ∧ s.halted = true) ∧
    (let s := { offering [.stream .eos] with fault := .bufOverflow }
     s.busy = false ∧ s.input = .stream .eos :: [] ∧ s.constructed = true ∧ s.halted = false ∧ s.fault ≠ .none) ∧
    (offering [.reset cfgB]).input = .reset cfgB :: [] := by
  decide

theorem witness_EveryCharacterHasAStep :
    (offering [.stream (.char 0xFF)]).accepting = true ∧
    (offering [.stream (.char 0xFF)]).input = .stream (.char 0xFF) :: [] := by
  decide

theorem witness_NibhParksTheHighNibble :
    classify 0x66 = .hex 15 .lower ∧ State.reset.accepting = true ∧ State.reset.pend = false := by
  decide

theorem witness_NiblCompletesTheByte :
    pending.accepting = true ∧ pending.pend = true ∧ pending.params.bufDepth = none ∧
    (at_ (depth 18) cfgB true 0 []).params.bufDepth = some 18 ∧ (at_ (depth 18) cfgB true 0 []).len + 16 ≤ 18 ∧
    ({ tight with pend := true }).accepting = true ∧ ({ tight with pend := true }).pend = true ∧
    ({ tight with pend := true }).params.bufDepth = some 4 ∧ 4 < ({ tight with pend := true }).len + 16 := by
  decide

theorem witness_SepClosesAndOpensAFrame :
    State.reset.accepting = true ∧ State.reset.params.bufDepth = none ∧
    (State.resetWith (depth 6) cfgB).accepting = true ∧
    (State.resetWith (depth 6) cfgB).params.bufDepth = some 6 ∧ (State.resetWith (depth 6) cfgB).len + 4 ≤ 6 ∧
    tight.accepting = true ∧ tight.params.bufDepth = some 4 ∧ 4 < tight.len + 4 := by
  decide

theorem witness_EotDispatchesTheBatch :
    tight.accepting = true ∧ tight.params.bufDepth = some 4 ∧ tight.len + 2 ≤ 4 ∧
    tight.txSilentAt ≠ some tight.draws := by
  decide

theorem witness_EotHangsOnASilentTransmitter :
    silent.accepting = true ∧ silent.params.bufDepth = none ∧ silent.txSilentAt = some silent.draws := by
  decide

theorem witness_IgnChangesNothing : isOther 0x00 = true ∧ isOther 0xFF = true ∧ pending.accepting = true := by decide

theorem witness_EosHaltsAndNothingElse :
    (offering [.stream .eos]).accepting = true ∧ (offering [.stream .eos]).input = .stream .eos :: [] := by
  decide

theorem witness_RstConstructsAFreshState :
    (let s := { offering [.reset cfgB] with fault := .bufOverflow, halted := true }
     s.busy = false ∧ s.input = .reset cfgB :: []) := by
  decide

theorem witness_RstForgetsThePreviousRun :
    pending.params = State.reset.params ∧ pending.input = State.reset.input ∧ pending.sent = State.reset.sent ∧
    pending.draws = State.reset.draws ∧ pending.resets = State.reset.resets ∧ pending.txSilentAt = State.reset.txSilentAt ∧ pending ≠ State.reset := by
  decide

theorem witness_OverflowRaisesAndAppendsNothing :
    (let s := at_ (depth 4) Config.cfgDefault true 0 [440, 15000]
     s.accepting = true ∧ s.params.bufDepth = some 4 ∧ s.pend = true ∧ 4 < s.len + 16 ∧ 4 < s.len + 4 ∧
       4 < s.len + 2) := by
  decide

theorem witness_WireOrderOfTheBits : ∀ k, k < 8 → (0xA5 : Byte).getLsbD k = (0xA5 : Byte).getLsbD (7 - k) := by decide

theorem witness_DigitPairMakesAByte :
    (State.resetWith (depth 18) cfgB).accepting = true ∧ (State.resetWith (depth 18) cfgB).pend = false ∧
    (State.resetWith (depth 18) cfgB).len + 16 ≤ 18 := by
  decide

theorem witness_NoHeaderAfterANewline :
    State.reset.accepting = true ∧ State.reset.params.bufDepth = none ∧
    State.reset.txSilentAt ≠ some State.reset.draws ∧ State.reset.pend = false ∧
    (State.resetWith (depth 16) cfgB).len + 2 ≤ 16 := by
  decide

theorem witness_ClearsPendParameterUnseenAtEvenCount : State.reset.pend = false := by decide

theorem witness_FrameOfNibhAndIgn :
    of (fun s => s.pend) (exec (.nibh 4 .decimal) State.reset) = some true ∧
    of (fun s => s.pend) (exec (.ign 0x20) pending) = some true := by
  decide

theorem witness_FrameOfNiblAndSep :
    of (fun s => s.len) (exec (.nibl 4 .decimal) pending) = some 18 ∧
    of (fun s => s.len) (exec .sep State.reset) = some 6 ∧
    of (fun s => s.fault) (exec .sep tight) = some .bufOverflow := by
  decide

theorem witness_FrameOfEot :
    of (fun s => s.busy) (exec .eot tight) = some false ∧ of (fun s => s.busy) (exec .eot silent) = some true ∧
    of (fun s => s.fault) (exec .eot (at_ (depth 4) Config.cfgDefault true 0 [440, 15000])) = some .bufOverflow := by
  decide

/-- A hex digit sets `pend`, and another clears it. -/
theorem witness_OnlyTheseEventsChangePend :
    of (fun s => s.pend) (step (offering [.stream (.char 0x34)])) = some true ∧
    of (fun s => s.pend) (step { pending with input := [.stream (.char 0x34)] }) = some false ∧
    of (fun s => s.pend) (step { at_ ⟨none, none, true⟩ cfgB true 0 [] with input := [.stream (.char 0x0A)] }) =
      some false := by
  decide

theorem witness_OnlyResetWritesTheConfiguration :
    of (fun s => s.cfg) (step (offering [.stream (.char 0x2C)])) = some Config.cfgDefault ∧
    takeEvent (offering [.stream (.char 0x2C)]) = .char 0x2C State.reset := by
  decide

/-- A halted or faulted block with nothing offered takes a step, and no reset. -/
theorem witness_OnlyResetClearsHaltedAndFault :
    of (fun s => s.halted) (step { State.reset with halted := true }) = some true ∧
    of (fun s => s.fault) (step { State.reset with fault := .bufOverflow }) = some .bufOverflow ∧
    takeEvent { State.reset with halted := true } = .idle ∧
    takeEvent { State.reset with fault := .bufOverflow } = .idle := by
  decide

theorem witness_OnlyEotPublishes :
    of (fun s => s.out.length) (step (offering [.stream (.char 0x2C)])) = some 0 ∧
    of (fun s => s.out.head?) (step { silent with input := [.stream (.char 0x0A)] }) =
      some (some (.tx ⟨[3500, 1700, 440, 15000], 38000, ⟨1, 2⟩⟩)) := by
  decide

theorem witness_ObservationChangesOnlyByTheseEvents :
    of (fun s => s.observe) (step (offering [.stream .eos])) = some ([], true, .none) ∧
    of (fun s => s.observe) (step { tight with input := [.stream (.char 0x2C)] }) =
      some ([], false, .bufOverflow) := by
  decide

/-- A run that begins with an `RST` and takes a comma and a digit; the output before it is not the run's. -/
theorem witness_RunWithoutNewlineHasNoOutput :
    (let s := { offering [.reset cfgB, .stream (.char 0x2C), .stream (.char 0x34)] with out := [.report .txFailure] }
     takeEvent s = .rst cfgB { s with input := [.stream (.char 0x2C), .stream (.char 0x34)] } ∧
       of (fun t => (t.out, t.len)) (run 3 s) = some ([], 6)) ∧
    ∀ o ∈ [Offer.stream (.char 0x2C), .stream (.char 0x34)], ¬ o.bringsNewline := by
  refine ⟨by decide, ?_⟩
  rintro o ho (rfl | ⟨c, rfl⟩) <;> simp at ho

theorem witness_RunEndsAsStated :
    State.reset.constructed = true ∧ State.reset.busy = false ∧
    of (fun s => s.endedNormally) (takeEos State.reset) = some true ∧
    of (fun s => s.endedAbnormally) (exec .sep tight) = some true ∧
    of (fun s => s.fault) (exec .sep tight) = some .bufOverflow := by
  decide

theorem witness_DelimiterMachineTransitions :
    of (fun s => (s.fault, s.busy)) (exec .sep State.reset) = some (.none, false) ∧
    of (fun s => (s.fault, s.busy)) (exec .eot State.reset) = some (.none, false) ∧
    of (fun s => (s.fault, s.busy)) (exec (.nibl 0 .decimal) pending) = some (.none, false) := by
  decide

/-- Reset's buffer is open: a header pair and no byte yet. -/
theorem witness_DelimiterMachine_open : IsOpen State.reset.cfg State.reset.buf := ⟨[], [], rfl⟩

/-- The empty buffer is bare. -/
theorem witness_DelimiterMachine_bare : IsBare State.reset.cfg [] := ⟨[], rfl⟩

theorem witness_EncoderInvariantAtReset : legalParams (depth 4) := by
  intro d h
  cases h
  decide

/-- A state with the invariants that takes a step: reset, offered a comma. -/
theorem witness_StepKeepsTheEncoderInvariant :
    EncoderInv (offering [.stream (.char 0x2C)]) ∧
    of (fun s => s.len) (step (offering [.stream (.char 0x2C)])) = some 6 := by
  refine ⟨⟨?_, by decide, by decide, ?_, ?_⟩, by decide⟩
  · intro d h
    cases h
  · intro i d h
    match i with
    | 0 => cases h; decide
    | 1 => cases h; decide
    | i + 2 => simp [offering, State.reset, State.resetWith, Memory.read] at h
  · intro d h
    cases h

theorem witness_RstEstablishesTheEncoderInvariant : legalParams State.reset.params := by
  intro d h
  cases h

theorem witness_StepKeepsTheBatchShape :
    BatchShape (offering [.stream (.char 0x2C)]) := by
  intro r h
  cases h

/-- 40000, the longest of `CFG_B`, fits 16 bits and does not fit 15. -/
theorem witness_StepKeepsDurationsInWidth_reset :
    cfgFits { Config.paramsDefault with durationWidth := some 16 } cfgB ∧
    ¬ cfgFits { Config.paramsDefault with durationWidth := some 15 } cfgB := by
  constructor
  · intro d hd w hw
    cases hw
    revert d
    decide
  · intro h
    exact absurd (h 40000 (by decide) 15 rfl) (by decide)

theorem witness_StepKeepsDurationsInWidth :
    WidthInv { offering [.stream (.char 0x2C)] with params := { Config.paramsDefault with durationWidth := some 16 } } := by
  have h : cfgFits { Config.paramsDefault with durationWidth := some 16 } Config.cfgDefault := by
    intro d hd w hw
    cases hw
    revert d
    decide
  refine ⟨h, ?_, ?_, ?_, ?_⟩
  · intro d hd
    exact h d (by revert d; decide)
  · intro r hr
    cases hr
  · intro c hc
    simp [offering] at hc
  · intro c e hc
    simp [offering] at hc

theorem witness_DeadCurIsNeverSeen : SameButDeadCur State.reset { State.reset with cur := 0xFF } := by
  refine ⟨rfl, ?_⟩
  intro h
  cases h

theorem witness_StatusesChangeOnlyTheReports :
    SameButStatus State.reset { State.reset with cur := 0xFF, draws := 7, out := [.report .txFailure], earlier := [.report .txFailure] } := by
  refine ⟨rfl, ?_, rfl, rfl, rfl⟩
  intro h
  cases h

/-- Two frames, of one byte and of none, offered to a block of depth 24. -/
theorem witness_LineSendsItsFrames :
    (let s := { State.resetWith (depth 24) Config.cfgDefault with input := charOffers (lineText [[0x41], []]) }
     s.accepting = true ∧ s.pend = false ∧ s.buf = headerWords s.cfg ∧ s.txSilentAt ≠ some s.draws ∧
       ([[0x41], []].map fun f : List Byte => 4 + 16 * f.length).sum ≤ 24 ∧
       s.input = charOffers [0x34, 0x31, 0x2C, 0x0A]) := by
  decide

/-- The text `4 a`, offered with the rest of the input empty; without the space and in upper case it is `4A`. -/
theorem witness_PlainTextActsAsTheText :
    plainText [0x34, 0x20, 0x61] = [0x34, 0x41] ∧
    (offering (charOffers [0x34, 0x20, 0x61])).input = charOffers [0x34, 0x20, 0x61] ++ [] ∧
    of (fun t => (t.accepting, t.cur)) (run 2 (offering (charOffers [0x34, 0x41]))) = some (true, 0x4A) := by
  decide

theorem witness_DumpAlternatesItsLabels :
    ([3500, 1700] : List Duration)[1]? = some 1700 ∧ dumpLines [3500, 1700] = [(.pulse, 3500), (.space, 1700)] := by
  decide

theorem witness_AppendWritesOneWordAtLen : (1 : Nat) ≠ State.reset.len := by decide

end Sys2Proof.Tests
end

section
/-!
PROOFS. The scope (spec/00_scope.md): a character is a step of its own, an accepting block has a step for every
character, and `Append` writes one word.
-/

namespace Sys2Proof.Machine

/-! ### The taking of a character -/

/-- With no `Transmit` outstanding, a character offered next is taken and leaves the offers (R26). -/
theorem takeEvent_of_char_offered {s : State} {c : Byte} {rest : List Offer} (hb : s.busy = false)
    (hi : s.input = .stream (.char c) :: rest) : takeEvent s = .char c (s.setInput rest) := by
  simp [takeEvent, hb, hi]

/-- A step that takes a character is the run of its instruction, in the mode `pend` (R8, R49). -/
theorem step_of_takeEvent_char {s t : State} {c : Byte} (h : takeEvent s = .char c t) :
    step s = exec (decodeChar t.pend c) t := by
  simp [step, h, instrAt]

/-- Settles O7: the offered character is taken, and the mode bit is the same before and after it leaves the offers. -/
theorem stepRunsTheDecodedCharacter : Obligations.StepRunsTheDecodedCharacter := by
  intro s c rest hb hi
  exact step_of_takeEvent_char (takeEvent_of_char_offered hb hi)

/-! ### Every instruction of the block's mode goes on -/

/-- The decoder answers with an instruction of the mode it reads in (R49). -/
theorem decodeChar_inMode (pend : Bool) (c : Byte) : (decodeChar pend c).inMode pend = true := by
  unfold decodeChar
  cases classify c with
  | hex n z => cases pend <;> rfl
  | comma => rfl
  | newline => rfl
  | other => rfl

/-- The capacity check itself never stops a meaning: without room it goes on with the fault register set (R71). -/
theorem withRoom_goes_on {k : Nat} {s : State} {go : Result} (h : ∃ t, go = .next t) :
    ∃ t, withRoom k s go = .next t := by
  cases hr : s.roomFor k with
  | false => exact ⟨_, withRoom_of_full hr⟩
  | true => rwa [withRoom_of_room hr]

/-- On an accepting block every instruction of the mode `pend` goes on, with room for its words or without, and
whether or not the Transmitter answers (R71, R75). -/
theorem exec_goes_on {i : Instr} {s : State} (ha : s.accepting = true) (hm : i.inMode s.pend = true) :
    ∃ t, exec i s = .next t := by
  cases i with
  | nibh n z =>
    have hp : s.pend = false := by simpa [Instr.inMode] using hm
    exact ⟨_, execNibh_eq ha hp⟩
  | nibl n z =>
    have hp : s.pend = true := hm
    rw [exec, execNibl, guarded_of_accepting ha, requirePend_of_eq hp]
    exact withRoom_goes_on ⟨_, rfl⟩
  | sep =>
    rw [exec, execSep, guarded_of_accepting ha]
    exact withRoom_goes_on ⟨_, rfl⟩
  | eot =>
    rw [exec, execEot, guarded_of_accepting ha]
    exact withRoom_goes_on ⟨_, dispatchBatch_eq _⟩
  | ign c => exact ⟨s, guarded_of_accepting ha⟩

/-- Settles O11: the decoder keeps to the block's mode, so the character's instruction goes on, and no instruction
writes the offers that are left once the character is taken. -/
theorem everyCharacterHasAStep : Obligations.EveryCharacterHasAStep := by
  intro s c rest ha hi
  obtain ⟨-, hb, -, -⟩ := (accepting_iff s).1 ha
  rw [stepRunsTheDecodedCharacter s c rest hb hi]
  obtain ⟨t, ht⟩ := exec_goes_on (s := { s with input := rest }) ha (decodeChar_inMode s.pend c)
  exact ⟨t, ht, exec_keeps_input ht⟩

/-! ### The write of `Append` -/

/-- Settles O48: `Append` is a write of one word at `len`, so the laws of read after write speak of it (R7, R33). -/
theorem appendWritesOneWordAtLen : Obligations.AppendWritesOneWordAtLen := by
  intro v s
  refine ⟨?len, ?new, ?old, memory_wf _, rfl⟩
  case len => simp [append_eq]
  case new => exact read_write_same s.buf s.len 0 [v] le_rfl (by simp)
  case old =>
    intro i hi
    have houtside : i < s.len ∨ s.len + [v].length ≤ i := by
      rw [List.length_singleton]
      omega
    exact read_write_other s.buf s.len i [v] le_rfl houtside

end Sys2Proof.Machine
end

section
/-!
PROOFS. The state (spec/10_state.md): what reset leaves, the invariants of R23, the width of the durations, which events
change a register or what an observer sees, and that a dead `cur` is never seen.
-/

namespace Sys2Proof.Machine

/-! ### The buffer as whole pairs (R15, R23(a), R23(c)) -/

/-- A sequence of words made of whole (mark, space) pairs: its length is even, and every word comes from the
configuration column its index belongs to. -/
structure WholePairs (c : Cfg) (m : Memory) : Prop where
  even     : m.length % 2 = 0
  inColumn : ∀ i d, Memory.read m i = some d → d ∈ columnOf c i

theorem wholePairs_nil (c : Cfg) : WholePairs c [] := ⟨rfl, by simp [Memory.read]⟩

theorem wholePairs_pair {c : Cfg} {m s : Duration} (hm : m ∈ columnOf c 0) (hs : s ∈ columnOf c 1) :
    WholePairs c [m, s] := by
  refine ⟨by simp, fun i d h => ?_⟩
  match i with
  | 0 => cases h; exact hm
  | 1 => cases h; exact hs
  | i + 2 => simp [Memory.read] at h

theorem columnOf_add_even (c : Cfg) {k : Nat} (hk : k % 2 = 0) (i : Nat) : columnOf c (k + i) = columnOf c i := by
  have hmod : (k + i) % 2 = i % 2 := by omega
  simp [columnOf, hmod]

/-- Pairs after whole pairs stand in their columns again, since the first part has even length. -/
theorem WholePairs.append {c : Cfg} {m w : Memory} (hm : WholePairs c m) (hw : WholePairs c w) :
    WholePairs c (m ++ w) := by
  have hme := hm.even
  have hwe := hw.even
  refine ⟨by rw [List.length_append]; omega, fun i d h => ?_⟩
  rcases lt_or_ge i m.length with hi | hi
  · exact hm.inColumn i d (by rwa [Memory.read, List.getElem?_append_left hi] at h)
  · obtain ⟨j, rfl⟩ := Nat.exists_eq_add_of_le hi
    rw [columnOf_add_even c hme]
    rw [Memory.read, List.getElem?_append_right hi, Nat.add_sub_cancel_left] at h
    exact hw.inColumn j d h

theorem wholePairs_flatMap {α : Type} {c : Cfg} {f : α → Memory} (hf : ∀ a, WholePairs c (f a)) (l : List α) :
    WholePairs c (l.flatMap f) := by
  induction l with
  | nil => exact wholePairs_nil c
  | cons a l ih => exact (hf a).append ih

theorem wholePairs_headerWords (c : Cfg) : WholePairs c (headerWords c) :=
  wholePairs_pair (by simp [columnOf]) (by simp [columnOf])

theorem wholePairs_tailWords (c : Cfg) : WholePairs c (tailWords c) :=
  wholePairs_pair (by simp [columnOf]) (by simp [columnOf])

theorem wholePairs_wireWords (c : Cfg) (b : Byte) : WholePairs c (wireWords c b) := by
  have hspace : ∀ one : Bool, (if one then c.bitOneSpaceLen else c.bitZeroSpaceLen) ∈ columnOf c 1
    | true => by simp [columnOf]
    | false => by simp [columnOf]
  exact wholePairs_flatMap (fun k => wholePairs_pair (by simp [columnOf]) (hspace _)) _

theorem wholePairs_sepWords (c : Cfg) : WholePairs c (tailWords c ++ headerWords c) :=
  (wholePairs_tailWords c).append (wholePairs_headerWords c)

/-! ### The encoder's invariants -/

theorem EncoderInv.wholePairs {s : State} (h : EncoderInv s) : WholePairs s.cfg s.buf := ⟨h.lenEven, h.words⟩

/-- A state that holds just the header pair, with no nibble pending, has the invariants. -/
theorem encoderInv_of_headerWords {s : State} (hl : legalParams s.params) (hp : s.pend = false)
    (hb : s.buf = headerWords s.cfg) : EncoderInv s := by
  have hpairs : WholePairs s.cfg s.buf := hb ▸ wholePairs_headerWords s.cfg
  refine ⟨hl, hpairs.even, by simp [hp], hpairs.inColumn, fun d hd => ?_⟩
  have hlen : s.len = 2 := by rw [State.len, hb]; rfl
  have hdepth := (hl d hd).2
  omega

/-- Whole pairs for which there is room may be appended. -/
theorem EncoderInv.appendPairs {s : State} {w : Memory} {k : Nat} (h : EncoderInv s) (hw : WholePairs s.cfg w)
    (hk : w.length = k) (hr : s.roomFor k = true) : EncoderInv { s with buf := s.buf ++ w } := by
  have hpairs := h.wholePairs.append hw
  refine ⟨h.legal, hpairs.even, h.lowNibble, hpairs.inColumn, fun d hd => ?_⟩
  rw [State.len, List.length_append, hk]
  exact (roomFor_iff k s).1 hr d hd

/-- The parked nibble leaves the low half clear (R55). -/
theorem highNibble_low (n : Nibble) : (highNibble n).extractLsb' 0 4 = 0 := by
  ext i hi
  simp [highNibble, hi]

/-- Every instruction keeps the invariants. -/
theorem exec_keeps_encoderInv {i : Instr} {s t : State} (hs : EncoderInv s) (h : exec i s = .next t) :
    EncoderInv t := by
  have hfault : EncoderInv { s with fault := .bufOverflow } :=
    ⟨hs.legal, hs.lenEven, hs.lowNibble, hs.words, hs.withinDepth⟩
  cases i with
  | nibh n z =>
    obtain ⟨-, -, rfl⟩ := exec_nibh_next h
    exact ⟨hs.legal, hs.lenEven, fun _ => highNibble_low n, hs.words, hs.withinDepth⟩
  | nibl n z =>
    obtain ⟨-, -, ⟨hr, rfl⟩ | ⟨-, rfl⟩⟩ := exec_nibl_next h
    · have happ := hs.appendPairs (wholePairs_wireWords s.cfg (withLowNibble s.cur n)) (wireWords_length _ _) hr
      exact ⟨happ.legal, happ.lenEven, nofun, happ.words, happ.withinDepth⟩
    · exact hfault
  | sep =>
    obtain ⟨-, ⟨hr, rfl⟩ | ⟨-, rfl⟩⟩ := exec_sep_next h
    · exact hs.appendPairs (wholePairs_sepWords s.cfg) rfl hr
    · exact hfault
  | eot =>
    obtain ⟨-, ⟨-, -, rfl⟩ | ⟨hr, -, rfl⟩ | ⟨-, rfl⟩⟩ := exec_eot_next h
    · have hempty := wholePairs_nil s.cfg
      refine ⟨hs.legal, hempty.even, fun hp => hs.lowNibble ?_, hempty.inColumn, fun d _ => Nat.zero_le d⟩
      have hpend : (if s.params.eotClearsPend then false else s.pend) = true := hp
      split at hpend
      · cases hpend
      · exact hpend
    · have happ := hs.appendPairs (wholePairs_tailWords s.cfg) rfl hr
      exact ⟨happ.legal, happ.lenEven, happ.lowNibble, happ.words, happ.withinDepth⟩
    · exact hfault
  | ign c =>
    obtain ⟨-, rfl⟩ := exec_ign_next h
    exact hs

/-! ### What a step can do -/

/-- The offer `o` is one of `l`, or the stream event left of one of them whose `RST` has been taken (R80). -/
def OfferedIn (l : List Offer) (o : Offer) : Prop := o ∈ l ∨ ∃ c e, o = .stream e ∧ .resetAndStream c e ∈ l

/-- What a step from `s` can lead to, by the event it takes; `l` are the offers left. -/
inductive StepsTo (s : State) : State → Prop
  /-- the block waits -/
  | wait : StepsTo s s
  | rst (c : Cfg) (l : List Offer) (taken : takeEvent s = .rst c { s with input := l })
      (offered : .reset c ∈ s.input ∨ ∃ e, .resetAndStream c e ∈ s.input) (left : ∀ o ∈ l, OfferedIn s.input o) :
      StepsTo s (takeRst c { s with input := l })
  | eos (l : List Offer) (taken : takeEvent s = .eos { s with input := l }) (accepts : s.accepting = true)
      (left : ∀ o ∈ l, OfferedIn s.input o) : StepsTo s { s with input := l, halted := true }
  | char (c : Byte) (l : List Offer) (t : State) (taken : takeEvent s = .char c { s with input := l })
      (offered : .stream (.char c) ∈ s.input) (left : ∀ o ∈ l, OfferedIn s.input o)
      (runs : exec (decodeChar s.pend c) { s with input := l } = .next t) : StepsTo s t

/-- Everything a step that goes on can have done, with the offer it took and the offers it left. -/
theorem stepsTo_of_step {s s' : State} (h : step s = .next s') : StepsTo s s' := by
  have hrest : ∀ {a : Offer} {rest : List Offer}, s.input = a :: rest → ∀ o ∈ rest, OfferedIn s.input o :=
    fun hi o ho => .inl (hi ▸ List.mem_cons_of_mem _ ho)
  obtain ⟨-, he⟩ | ⟨-, ⟨-, he⟩ | ⟨c, rest, hi, he⟩ | ⟨c, e, rest, hi, he⟩ | ⟨rest, hi, he⟩ | ⟨c, rest, hi, he⟩⟩ :=
    takeEvent_cases s <;> simp only [step, he] at h
  · cases h; exact .wait
  · cases h; exact .wait
  · cases h
    exact .rst c rest he (.inl (by simp [hi])) (hrest hi)
  · cases h
    refine .rst c _ he (.inr ⟨e, by simp [hi]⟩) fun o ho => ?_
    rcases List.mem_cons.1 ho with rfl | ho
    · exact .inr ⟨c, e, rfl, by simp [hi]⟩
    · exact hrest hi o ho
  · obtain ⟨ha, h1⟩ := guarded_next h
    cases h1
    exact .eos rest he ha (hrest hi)
  · exact .char c rest s' he (by simp [hi]) (hrest hi) h

/-! ### The invariants of R23 -/

/-- Settles O40: `RST` leaves just the header pair of the sampled configuration, with no nibble pending. -/
theorem rstEstablishesTheEncoderInvariant : Obligations.RstEstablishesTheEncoderInvariant := by
  intro c s hl
  rw [takeRst_eq]
  exact encoderInv_of_headerWords hl rfl rfl

/-- Settles O38: so does reset, and the default parameters bound no depth. -/
theorem encoderInvariantAtReset : Obligations.EncoderInvariantAtReset :=
  ⟨fun _ _ hl => encoderInv_of_headerWords hl rfl rfl, encoderInv_of_headerWords nofun rfl rfl⟩

/-- Settles O39, by the event the step takes: an instruction appends whole pairs for which it has found room, and `RST`
establishes the invariants anew. -/
theorem stepKeepsTheEncoderInvariant : Obligations.StepKeepsTheEncoderInvariant := by
  intro s s' hs h
  have hoffers (l : List Offer) : EncoderInv { s with input := l } :=
    ⟨hs.legal, hs.lenEven, hs.lowNibble, hs.words, hs.withinDepth⟩
  cases stepsTo_of_step h with
  | wait => exact hs
  | rst c l => exact rstEstablishesTheEncoderInvariant c _ hs.legal
  | eos l => exact ⟨hs.legal, hs.lenEven, hs.lowNibble, hs.words, hs.withinDepth⟩
  | char c l t _ _ _ hexec => exact exec_keeps_encoderInv (hoffers l) hexec

/-- Settles O37: reset's buffer is the list of the two header words, so no word is read from index 2 on. -/
theorem resetLeavesTheStatedValues : Obligations.ResetLeavesTheStatedValues := by
  refine ⟨fun p c => ⟨rfl, rfl, rfl, rfl, rfl, fun i hi => ?_, rfl, rfl⟩, rfl⟩
  exact List.getElem?_eq_none hi

/-! ### A dead `cur` is never seen (R11) -/

section Agree

variable {R : State → State → Prop} {s t : State} {a b : Result}

theorem agree_refl (hR : ∀ s, R s s) (a : Result) : Agree R a a := by
  cases a with
  | next s => exact hR s
  | fault r => rfl
  | refused r => rfl

theorem agree_next (h : R s t) : Agree R (.next s) (.next t) := h

theorem agree_guarded (ha : s.accepting = t.accepting) (hw : s.whyRefused = t.whyRefused) (h : Agree R a b) :
    Agree R (guarded s a) (guarded t b) := by
  unfold guarded
  rw [← ha, ← hw]
  split
  · exact h
  · rfl

theorem agree_requirePend {p : Bool} (hp : s.pend = t.pend) (h : Agree R a b) :
    Agree R (requirePend p s a) (requirePend p t b) := by
  unfold requirePend
  rw [← hp]
  split
  · exact h
  · rfl

theorem agree_withRoom {k : Nat} (hr : s.roomFor k = t.roomFor k)
    (hf : R (s.raiseFault .bufOverflow s.len) (t.raiseFault .bufOverflow t.len)) (h : Agree R a b) :
    Agree R (withRoom k s a) (withRoom k t b) := by
  unfold withRoom
  rw [← hr]
  split
  · exact h
  · exact hf

end Agree

theorem sameButDeadCur_refl (s : State) : SameButDeadCur s s := ⟨rfl, fun _ => rfl⟩

/-- With no nibble pending any value may stand in `cur`. -/
theorem sameButDeadCur_setCur {s : State} (hp : s.pend = false) (v : Byte) : SameButDeadCur s (s.setCur v) :=
  ⟨rfl, by simp [hp]⟩

/-- Related states are equal, or no nibble is pending and one is the other with another `cur`. -/
theorem sameButDeadCur_cases {s t : State} (h : SameButDeadCur s t) :
    t = s ∨ (s.pend = false ∧ ∃ v, t = s.setCur v) := by
  obtain ⟨ht, hcur⟩ := h
  cases hp : s.pend with
  | true =>
    rw [hcur hp] at ht
    exact .inl ht
  | false => exact .inr ⟨rfl, t.cur, ht⟩

/-- `Append` does not read `cur`. -/
theorem appendSyms_setCur (s : State) (l : List Sym) (v : Byte) :
    (s.setCur v).appendSyms l = (s.appendSyms l).setCur v := by
  rw [appendSyms_eq, appendSyms_eq]
  rfl

/-- A transmission does not read `cur`. -/
theorem transmit_setCur (s : State) (train : List Duration) (v : Byte) :
    (s.setCur v).transmit train = (s.transmit train).setCur v := by
  by_cases hs : s.txSilentAt = some s.draws
  · rw [transmit_of_silent train hs, transmit_of_silent train (s := s.setCur v) hs]
    rfl
  · rw [transmit_of_answers train hs, transmit_of_answers train (s := s.setCur v) hs]
    rfl

/-- A transmission never sets `pend`. -/
theorem transmit_pend_clear {s : State} (train : List Duration) (hp : s.pend = false) :
    (s.transmit train).pend = false := by
  by_cases hs : s.txSilentAt = some s.draws
  · rw [transmit_of_silent train hs]
    exact hp
  · rw [transmit_of_answers train hs]
    simp [hp]

/-- With no nibble pending no instruction reads `cur`: `NIBH` overwrites it, and `NIBL` is no step. -/
theorem exec_agrees_on_deadCur (i : Instr) {s : State} (hp : s.pend = false) (v : Byte) :
    Agree SameButDeadCur (exec i s) (exec i (s.setCur v)) := by
  have hfault (f : FaultCause) (n : Nat) : SameButDeadCur (s.raiseFault f n) ((s.setCur v).raiseFault f n) :=
    sameButDeadCur_setCur (s := s.raiseFault f n) hp v
  cases i with
  | nibh n z => exact agree_guarded rfl rfl (agree_requirePend rfl (agree_next (sameButDeadCur_refl _)))
  | nibl n z =>
    have hstop (go : Result) (t : State) (ht : t.pend = false) : requirePend true t go = .refused .wrongMode := by
      simp [requirePend, ht]
    refine agree_guarded rfl rfl ?_
    rw [hstop _ s hp, hstop _ (s.setCur v) hp]
    rfl
  | sep =>
    refine agree_guarded rfl rfl (agree_withRoom rfl (hfault _ _) (agree_next ?_))
    have hp' : (s.appendSyms [.tail, .hdr]).pend = false := by rwa [appendSyms_sep]
    rw [appendSyms_setCur]
    exact sameButDeadCur_setCur hp' v
  | eot =>
    refine agree_guarded rfl rfl (agree_withRoom rfl (hfault _ _) ?_)
    have hp' : (s.appendSym .tail).pend = false := by rwa [appendSym_tail]
    have htail : (s.setCur v).appendSym .tail = (s.appendSym .tail).setCur v := appendSyms_setCur s [.tail] v
    rw [htail, dispatchBatch_eq, dispatchBatch_eq, setCur_buf, transmit_setCur]
    exact agree_next (sameButDeadCur_setCur (transmit_pend_clear _ hp') v)
  | ign c => exact agree_guarded rfl rfl (agree_next (sameButDeadCur_setCur hp v))

/-- What has been taken, with another `cur` in the state it goes on with. -/
def Taken.setCur (v : Byte) : Taken → Taken
  | .outstanding => .outstanding
  | .idle => .idle
  | .rst c s => .rst c (s.setCur v)
  | .eos s => .eos (s.setCur v)
  | .char c s => .char c (s.setCur v)

/-- The taking of an event does not read `cur`. -/
theorem takeEvent_setCur (s : State) (v : Byte) : takeEvent (s.setCur v) = (takeEvent s).setCur v := by
  unfold takeEvent
  rw [setCur_busy, setCur_input]
  cases s.busy with
  | true => rfl
  | false => rcases s.input with _ | ⟨(_ | _) | _ | _, _⟩ <;> rfl

/-- Settles O43: with a nibble pending the two states are equal; with none, the event is taken without `cur`, and then
neither `RST` nor `EOS` nor any instruction reads it. -/
theorem deadCurIsNeverSeen : Obligations.DeadCurIsNeverSeen := by
  intro s t hst
  obtain rfl | ⟨hp, v, rfl⟩ := sameButDeadCur_cases hst
  · exact agree_refl sameButDeadCur_refl _
  · unfold step
    rw [takeEvent_setCur]
    cases he : takeEvent s with
    | outstanding => exact hst
    | idle => exact hst
    | rst c u =>
      have hrst : takeRst c (u.setCur v) = takeRst c u := by rw [takeRst_eq, takeRst_eq]; rfl
      simp only [Taken.setCur, hrst]
      exact agree_next (sameButDeadCur_refl _)
    | eos u =>
      have hpu : u.pend = false := by obtain ⟨l, rfl⟩ := takeEvent_eos_input he; exact hp
      exact agree_guarded rfl rfl (agree_next (sameButDeadCur_setCur (s := u.halt) hpu v))
    | char c u =>
      have hpu : u.pend = false := by obtain ⟨l, rfl⟩ := takeEvent_char_input he; exact hp
      exact exec_agrees_on_deadCur (instrAt u c) hpu v

/-! ### No step faults -/

theorem exec_of_not_accepting (i : Instr) {s : State} (ha : s.accepting = false) :
    exec i s = .refused s.whyRefused := by
  cases i <;> exact guarded_of_not_accepting ha

/-- Settles O12: a decoded character goes on or is refused, `EOS` too, and everything else goes on. -/
theorem noStepReadsAMissingWord : Obligations.NoStepReadsAMissingWord := by
  intro s r h
  unfold step at h
  cases he : takeEvent s with
  | outstanding => simp [he] at h
  | idle => simp [he] at h
  | rst c t => simp [he] at h
  | eos t =>
    simp only [he, takeEos, guarded] at h
    split at h <;> cases h
  | char c t =>
    simp only [he] at h
    cases ha : t.accepting with
    | false =>
      rw [exec_of_not_accepting _ ha] at h
      cases h
    | true =>
      obtain ⟨u, hu⟩ := exec_goes_on ha (decodeChar_inMode t.pend c)
      exact nomatch hu.symm.trans h

/-! ### The width of the durations (R14, R99) -/

theorem fitsWidth_of_mem_columnOf {p : Params} {c : Cfg} {i : Nat} {d : Duration} (hc : cfgFits p c)
    (hd : d ∈ columnOf c i) : fitsWidth p d := by
  refine hc d ?_
  unfold columnOf at hd
  split at hd <;> simp only [List.mem_cons, List.not_mem_nil, or_false] at hd ⊢ <;> tauto

/-- Whole pairs are copies of configuration words, so they fit where the configuration does. -/
theorem WholePairs.fit {p : Params} {c : Cfg} {m : Memory} (hm : WholePairs c m) (hc : cfgFits p c) :
    ∀ d ∈ m, fitsWidth p d := by
  intro d hd
  obtain ⟨i, hi⟩ := List.mem_iff_getElem?.1 hd
  exact fitsWidth_of_mem_columnOf hc (hm.inColumn i d hi)

/-- The buffer still fits when whole pairs are appended. -/
theorem WidthInv.bufAppend {s : State} (h : WidthInv s) {w : Memory} (hw : WholePairs s.cfg w) :
    ∀ d ∈ s.buf ++ w, fitsWidth s.params d := by
  intro d hd
  rcases List.mem_append.1 hd with hd | hd
  · exact h.buf d hd
  · exact hw.fit h.cfg d hd

/-- A batch sent with any reports after it fits: it is the buffer with the tail pair. -/
theorem WidthInv.sentBatch {s : State} (h : WidthInv s) {reports : List Output} (hr : requests reports = []) :
    ∀ r ∈ requests (s.earlier ++ (s.out ++ requestOf (s.buf ++ tailWords s.cfg) :: reports)), ∀ d ∈ r.train,
      fitsWidth s.params d := by
  intro r hmem
  have hcases : r ∈ requests s.sent ∨ r = ⟨s.buf ++ tailWords s.cfg, 38000, ⟨1, 2⟩⟩ := by
    simpa [hr, or_assoc] using hmem
  rcases hcases with hold | rfl
  · exact h.sent r hold
  · exact h.bufAppend (wholePairs_tailWords s.cfg)

/-- The offers that a step leaves bring no configuration that was not on offer. -/
theorem WidthInv.withOffers {s : State} {l : List Offer} (h : WidthInv s) (left : ∀ o ∈ l, OfferedIn s.input o) :
    WidthInv { s with input := l } := by
  refine ⟨h.cfg, h.buf, h.sent, fun c hc => ?_, fun c e hc => ?_⟩
  · obtain hin | ⟨_, _, hstream, -⟩ := left _ hc
    · exact h.resets c hin
    · cases hstream
  · obtain hin | ⟨_, _, hstream, -⟩ := left _ hc
    · exact h.resets2 c e hin
    · cases hstream

/-- Every instruction keeps the durations in width: it appends whole pairs, or sends the buffer with the tail pair. -/
theorem exec_keeps_widthInv {i : Instr} {s t : State} (hs : WidthInv s) (h : exec i s = .next t) : WidthInv t := by
  have hfault : WidthInv { s with fault := .bufOverflow } := ⟨hs.cfg, hs.buf, hs.sent, hs.resets, hs.resets2⟩
  cases i with
  | nibh n z =>
    obtain ⟨-, -, rfl⟩ := exec_nibh_next h
    exact ⟨hs.cfg, hs.buf, hs.sent, hs.resets, hs.resets2⟩
  | nibl n z =>
    obtain ⟨-, -, ⟨-, rfl⟩ | ⟨-, rfl⟩⟩ := exec_nibl_next h
    · exact ⟨hs.cfg, hs.bufAppend (wholePairs_wireWords s.cfg _), hs.sent, hs.resets, hs.resets2⟩
    · exact hfault
  | sep =>
    obtain ⟨-, ⟨-, rfl⟩ | ⟨-, rfl⟩⟩ := exec_sep_next h
    · exact ⟨hs.cfg, hs.bufAppend (wholePairs_sepWords s.cfg), hs.sent, hs.resets, hs.resets2⟩
    · exact hfault
  | eot =>
    obtain ⟨-, ⟨-, -, rfl⟩ | ⟨-, -, rfl⟩ | ⟨-, rfl⟩⟩ := exec_eot_next h
    · exact ⟨hs.cfg, nofun, hs.sentBatch (requests_statusReports _), hs.resets, hs.resets2⟩
    · exact ⟨hs.cfg, hs.bufAppend (wholePairs_tailWords s.cfg), hs.sentBatch requests_nil, hs.resets, hs.resets2⟩
    · exact hfault
  | ign c =>
    obtain ⟨-, rfl⟩ := exec_ign_next h
    exact hs

/-- `RST` keeps the durations in width when the configuration on the port fits. -/
theorem takeRst_keeps_widthInv {c : Cfg} {s : State} (hs : WidthInv s) (hc : cfgFits s.params c) :
    WidthInv (takeRst c s) := by
  rw [takeRst_eq]
  refine ⟨hc, (wholePairs_headerWords c).fit hc, ?_, hs.resets, hs.resets2⟩
  simpa using hs.sent

/-- Settles O42, by the event the step takes: every word appended or sent is a copy of one of the configuration's. -/
theorem stepKeepsDurationsInWidth : Obligations.StepKeepsDurationsInWidth := by
  refine ⟨fun p c hc => ⟨hc, (wholePairs_headerWords c).fit hc, nofun, nofun, nofun⟩, fun s s' hs h => ?_⟩
  cases stepsTo_of_step h with
  | wait => exact hs
  | rst c l _ offered left =>
    refine takeRst_keeps_widthInv (hs.withOffers left) ?_
    obtain hin | ⟨e, hin⟩ := offered
    · exact hs.resets c hin
    · exact hs.resets2 c e hin
  | eos l _ _ left =>
    have hleft := hs.withOffers left
    exact ⟨hleft.cfg, hleft.buf, hleft.sent, hleft.resets, hleft.resets2⟩
  | char c l t _ _ left hexec => exact exec_keeps_widthInv (hs.withOffers left) hexec

/-! ### Which events change a register -/

/-- No instruction writes a parameter or a configuration register. -/
theorem exec_keeps_params_cfg {i : Instr} {s t : State} (h : exec i s = .next t) :
    t.params = s.params ∧ t.cfg = s.cfg := by
  cases i with
  | nibh n z => obtain ⟨-, -, rfl⟩ := exec_nibh_next h; exact ⟨rfl, rfl⟩
  | nibl n z => obtain ⟨-, -, ⟨-, rfl⟩ | ⟨-, rfl⟩⟩ := exec_nibl_next h <;> exact ⟨rfl, rfl⟩
  | sep => obtain ⟨-, ⟨-, rfl⟩ | ⟨-, rfl⟩⟩ := exec_sep_next h <;> exact ⟨rfl, rfl⟩
  | eot => obtain ⟨-, ⟨-, -, rfl⟩ | ⟨-, -, rfl⟩ | ⟨-, rfl⟩⟩ := exec_eot_next h <;> exact ⟨rfl, rfl⟩
  | ign c => obtain ⟨-, rfl⟩ := exec_ign_next h; exact ⟨rfl, rfl⟩

/-- Settles O31: of the events only `RST` writes `cfg`, and it writes no parameter either. -/
theorem onlyResetWritesTheConfiguration : Obligations.OnlyResetWritesTheConfiguration := by
  intro s s' h
  cases stepsTo_of_step h with
  | wait => exact ⟨rfl, fun _ => rfl⟩
  | rst c l taken => exact ⟨by rw [takeRst_eq], fun hno => absurd ⟨c, _, taken⟩ hno⟩
  | eos l => exact ⟨rfl, fun _ => rfl⟩
  | char c l t _ _ _ hexec =>
    obtain ⟨hparams, hcfg⟩ := exec_keeps_params_cfg hexec
    exact ⟨hparams, fun _ => hcfg⟩

/-- An instruction goes on only from an accepting block. -/
theorem accepting_of_exec_next {i : Instr} {s t : State} (h : exec i s = .next t) : s.accepting = true := by
  by_contra hna
  rw [exec_of_not_accepting i (by simpa using hna)] at h
  cases h

/-- Settles O32: a halted or faulted block is not accepting, so without an `RST` it can only wait. -/
theorem onlyResetClearsHaltedAndFault : Obligations.OnlyResetClearsHaltedAndFault := by
  intro s s' h hno
  have hvacuous (ha : s.accepting = true) :
      (s.halted = true → s'.halted = true) ∧ (s.fault ≠ .none → s'.fault = s.fault) := by
    obtain ⟨-, -, hhalted, hfault⟩ := (accepting_iff s).1 ha
    exact ⟨by simp [hhalted], fun hne => absurd hfault hne⟩
  cases stepsTo_of_step h with
  | wait => exact ⟨id, fun _ => rfl⟩
  | rst c l taken => exact absurd ⟨c, _, taken⟩ hno
  | eos l _ accepts => exact hvacuous accepts
  | char c l t _ _ _ hexec => exact hvacuous (accepting_of_exec_next (s := { s with input := l }) hexec)

/-! ### Which characters change `pend` and what an observer sees -/

/-- The decoder gives a hex-digit instruction for a hex digit only (R44). -/
theorem classify_of_decodeChar_digit {pend : Bool} {c : Byte} {n : Nibble} {z : Zone}
    (h : decodeChar pend c = .nibh n z ∨ decodeChar pend c = .nibl n z) : classify c = .hex n z := by
  unfold decodeChar at h
  cases hc : classify c with
  | hex m y => cases pend <;> simp_all
  | comma => simp [hc] at h
  | newline => simp [hc] at h
  | other => simp [hc] at h

/-- The decoder gives `EOT` for the newline only (R47). -/
theorem newline_of_decodeChar_eot {pend : Bool} {c : Byte} (h : decodeChar pend c = .eot) : c = 0x0A := by
  have hclass : classify c = .newline := by
    unfold decodeChar at h
    cases hc : classify c with
    | hex m y => cases pend <;> simp [hc] at h
    | comma => simp [hc] at h
    | newline => rfl
    | other => simp [hc] at h
  by_contra hne
  simp only [classify, hne, if_false] at hclass
  split_ifs at hclass

/-- An instruction that changes `pend` is a digit, or `EOT` under the parameter, which clears it (R13, R61). -/
theorem exec_pend {i : Instr} {s t : State} (h : exec i s = .next t) :
    t.pend = s.pend ∨ (∃ n z, i = .nibh n z ∨ i = .nibl n z) ∨
      (i = .eot ∧ s.params.eotClearsPend = true ∧ t.pend = false) := by
  cases i with
  | nibh n z => exact .inr (.inl ⟨n, z, .inl rfl⟩)
  | nibl n z => exact .inr (.inl ⟨n, z, .inr rfl⟩)
  | sep => obtain ⟨-, ⟨-, rfl⟩ | ⟨-, rfl⟩⟩ := exec_sep_next h <;> exact .inl rfl
  | eot =>
    obtain ⟨-, ⟨-, -, rfl⟩ | ⟨-, -, rfl⟩ | ⟨-, rfl⟩⟩ := exec_eot_next h
    · cases hp : s.params.eotClearsPend with
      | true => exact .inr (.inr ⟨rfl, rfl, if_pos hp⟩)
      | false => exact .inl (if_neg (by simp [hp]))
    · exact .inl rfl
    · exact .inl rfl
  | ign c => obtain ⟨-, rfl⟩ := exec_ign_next h; exact .inl rfl

/-- A step that changes `pend` takes a digit, or clears it by an `RST` or by a newline under the parameter. -/
theorem step_pend {s s' : State} (h : step s = .next s') :
    s'.pend = s.pend ∨ (∃ c n z, s.takesChar c ∧ classify c = .hex n z) ∨
      (s'.pend = false ∧ (s.takesReset ∨ (s.takesChar 0x0A ∧ s.params.eotClearsPend = true))) := by
  cases stepsTo_of_step h with
  | wait => exact .inl rfl
  | rst c l taken => exact .inr (.inr ⟨by rw [takeRst_eq], .inl ⟨c, _, taken⟩⟩)
  | eos l => exact .inl rfl
  | char c l t taken _ _ hexec =>
    obtain hsame | ⟨n, z, hdigit⟩ | ⟨heot, hclears, hp⟩ := exec_pend hexec
    · exact .inl hsame
    · exact .inr (.inl ⟨c, n, z, ⟨_, taken⟩, classify_of_decodeChar_digit hdigit⟩)
    · obtain rfl := newline_of_decodeChar_eot heot
      exact .inr (.inr ⟨hp, .inr ⟨⟨_, taken⟩, hclears⟩⟩)

/-- Settles O30: both directions of the flag are read off the three ways a step can treat it. -/
theorem onlyTheseEventsChangePend : Obligations.OnlyTheseEventsChangePend := by
  intro s s' h
  obtain hsame | hdigit | ⟨hp', hclear⟩ := step_pend h
  · exact ⟨fun hp hp' => by simp [hsame, hp] at hp', fun hp hp' => by simp [hsame, hp] at hp'⟩
  · exact ⟨fun _ _ => hdigit, fun _ _ => .inr (.inl hdigit)⟩
  · refine ⟨fun _ hset => by simp [hp'] at hset, fun _ _ => ?_⟩
    exact hclear.elim .inl fun hnewline => .inr (.inr hnewline)

/-- What an observer sees of a run changes by `EOT`, or by an overflow, which makes no output. -/
theorem exec_observe {i : Instr} {s t : State} (h : exec i s = .next t) :
    t.observe = s.observe ∨ i = .eot ∨ (s.fault = .none ∧ t.fault = .bufOverflow ∧ t.out = s.out) := by
  obtain ⟨-, -, -, hfault⟩ := (accepting_iff s).1 (accepting_of_exec_next h)
  cases i with
  | nibh n z => obtain ⟨-, -, rfl⟩ := exec_nibh_next h; exact .inl rfl
  | nibl n z =>
    obtain ⟨-, -, ⟨-, rfl⟩ | ⟨-, rfl⟩⟩ := exec_nibl_next h
    · exact .inl rfl
    · exact .inr (.inr ⟨hfault, rfl, rfl⟩)
  | sep =>
    obtain ⟨-, ⟨-, rfl⟩ | ⟨-, rfl⟩⟩ := exec_sep_next h
    · exact .inl rfl
    · exact .inr (.inr ⟨hfault, rfl, rfl⟩)
  | eot => exact .inr (.inl rfl)
  | ign c => obtain ⟨-, rfl⟩ := exec_ign_next h; exact .inl rfl

/-- `RST` begins a run of which nothing has been seen yet (R93). -/
theorem takeRst_observe (c : Cfg) (s : State) : (takeRst c s).observe = ([], false, .none) := by
  rw [takeRst_eq]
  rfl

/-- Settles O34, by the event the step takes; of the characters only the newline is an `EOT`. -/
theorem observationChangesOnlyByTheseEvents : Obligations.ObservationChangesOnlyByTheseEvents := by
  intro s s' h
  cases stepsTo_of_step h with
  | wait => exact .inl rfl
  | rst c l taken => exact .inr (.inl ⟨⟨c, _, taken⟩, takeRst_observe c _⟩)
  | eos l taken => exact .inr (.inr (.inl ⟨_, taken⟩))
  | char c l t taken _ _ hexec =>
    obtain hsame | heot | hoverflow := exec_observe hexec
    · exact .inl hsame
    · obtain rfl := newline_of_decodeChar_eot heot
      exact .inr (.inr (.inr (.inl ⟨_, taken⟩)))
    · exact .inr (.inr (.inr (.inr hoverflow)))

/-! ### A run without a newline (R27, R93) -/

/-- What every step keeps, a run keeps. -/
theorem run_keeps {P : State → Prop} (hstep : ∀ s t, P s → step s = .next t → P t) {k : Nat} {s t : State}
    (hs : P s) (h : run k s = .next t) : P t := by
  induction k generalizing s with
  | zero => cases h; exact hs
  | succ k ih =>
    cases hu : step s with
    | next u => exact ih (hstep s u hs hu) (run_succ_of_next k hu ▸ h)
    | fault r => exact nomatch (run_succ_of_fault k hu).symm.trans h
    | refused r => exact nomatch (run_succ_of_refused k hu).symm.trans h

/-- The present run has no output, and no newline is on offer. -/
structure NoNewlineYet (s : State) : Prop where
  noOutput : s.out = []
  offers   : ∀ o ∈ s.input, ¬ o.bringsNewline

/-- An instruction that makes output is `EOT`. -/
theorem exec_keeps_out {i : Instr} {s t : State} (hne : i ≠ .eot) (h : exec i s = .next t) : t.out = s.out := by
  obtain hsame | rfl | ⟨-, -, hout⟩ := exec_observe h
  · exact congrArg Prod.fst hsame
  · exact absurd rfl hne
  · exact hout

/-- No newline is left on offer where none was. -/
theorem not_bringsNewline_of_offeredIn {l : List Offer} (hl : ∀ o ∈ l, ¬ o.bringsNewline) {o : Offer}
    (ho : OfferedIn l o) : ¬ o.bringsNewline := by
  obtain hin | ⟨c, e, rfl, hin⟩ := ho
  · exact hl o hin
  · rintro (heq | ⟨_, heq⟩) <;> cases heq
    exact hl _ hin (.inr ⟨c, rfl⟩)

theorem step_keeps_noNewlineYet (s s' : State) (hs : NoNewlineYet s) (h : step s = .next s') : NoNewlineYet s' := by
  have hleft {l : List Offer} (left : ∀ o ∈ l, OfferedIn s.input o) : ∀ o ∈ l, ¬ o.bringsNewline :=
    fun o ho => not_bringsNewline_of_offeredIn hs.offers (left o ho)
  cases stepsTo_of_step h with
  | wait => exact hs
  | rst c l _ _ left =>
    rw [takeRst_eq]
    exact ⟨rfl, hleft left⟩
  | eos l _ _ left => exact ⟨hs.noOutput, hleft left⟩
  | char c l t _ offered left hexec =>
    have hne : decodeChar s.pend c ≠ .eot := by
      intro heot
      obtain rfl := newline_of_decodeChar_eot heot
      exact hs.offers _ offered (.inl rfl)
    refine ⟨(exec_keeps_out hne hexec).trans hs.noOutput, ?_⟩
    rw [exec_keeps_input hexec]
    exact hleft left

/-- Settles O49: `RST` begins a run with no output, and every step keeps it so while no newline is on offer. -/
theorem runWithoutNewlineHasNoOutput : Obligations.RunWithoutNewlineHasNoOutput := by
  intro k c s u t taken hoffers hrun
  have hstep : step s = .next (takeRst c u) := by simp only [step, taken]
  have hfirst : NoNewlineYet (takeRst c u) := by
    rw [takeRst_eq]
    exact ⟨rfl, hoffers⟩
  rw [run_succ_of_next k hstep] at hrun
  have hlast := run_keeps step_keeps_noNewlineYet hfirst hrun
  rw [State.observe, hlast.noOutput]

/-! ### The two forms of input (R26, R52) -/

theorem charOffers_append (a b : List Byte) : charOffers (a ++ b) = charOffers a ++ charOffers b :=
  List.map_append

/-- The newline of the explicit argument stands between its characters and `EOS`. -/
theorem argumentOffers_eq (text : List Byte) :
    argumentOffers text = charOffers text ++ [.stream (.char 0x0A), .stream .eos] := by
  rw [argumentOffers, stdinOffers, charOffers_append, List.append_assoc]
  rfl

/-- Settles O46: a newline that ends the argument is one of its characters, so a second one follows it. -/
theorem argumentGetsOneNewline : Obligations.ArgumentGetsOneNewline := by
  refine fun text => ⟨argumentOffers_eq text, rfl, ?_⟩
  rw [argumentOffers_eq, charOffers_append, List.append_assoc]
  rfl

end Sys2Proof.Machine
end

section
/-!
PROOFS. The buffer (spec/20_memory.md): without room nothing is appended, only a newline sends the buffer, a line of
frames is one request, and the dump labels its words in turn.
-/

namespace Sys2Proof.Machine

/-! ### Without room (R33, R70, R71) -/

theorem roomFor_eq_false {s : State} {k d : Nat} (hd : s.params.bufDepth = some d) (hfull : d < s.buf.length + k) :
    s.roomFor k = false := by
  simp [State.roomFor, hd, hfull]

theorem exec_nibl_of_full {n : Nibble} {z : Zone} {s : State} (ha : s.accepting = true) (hp : s.pend = true)
    (hfull : s.roomFor 16 = false) : exec (.nibl n z) s = .next { s with fault := .bufOverflow } := by
  rw [exec, execNibl, guarded_of_accepting ha, requirePend_of_eq hp, withRoom_of_full hfull]
  rfl

theorem exec_sep_of_full {s : State} (ha : s.accepting = true) (hfull : s.roomFor 4 = false) :
    exec .sep s = .next { s with fault := .bufOverflow } := by
  rw [exec, execSep, guarded_of_accepting ha, withRoom_of_full hfull]
  rfl

theorem exec_eot_of_full {s : State} (ha : s.accepting = true) (hfull : s.roomFor 2 = false) :
    exec .eot s = .next { s with fault := .bufOverflow } := by
  rw [exec, execEot, guarded_of_accepting ha, withRoom_of_full hfull]
  rfl

/-- Settles O22: each of the three makes its one capacity check before its first append. -/
theorem overflowRaisesAndAppendsNothing : Obligations.OverflowRaisesAndAppendsNothing := by
  intro s d ha hd
  exact ⟨fun _ _ hp hfull => exec_nibl_of_full ha hp (roomFor_eq_false hd hfull),
    fun hfull => exec_sep_of_full ha (roomFor_eq_false hd hfull),
    fun hfull => exec_eot_of_full ha (roomFor_eq_false hd hfull)⟩

/-! ### What is sent (R36, R39, R73) -/

/-- No instruction writes the output of earlier runs. -/
theorem exec_keeps_earlier {i : Instr} {s t : State} (h : exec i s = .next t) : t.earlier = s.earlier := by
  cases i with
  | nibh n z => obtain ⟨-, -, rfl⟩ := exec_nibh_next h; rfl
  | nibl n z => obtain ⟨-, -, ⟨-, rfl⟩ | ⟨-, rfl⟩⟩ := exec_nibl_next h <;> rfl
  | sep => obtain ⟨-, ⟨-, rfl⟩ | ⟨-, rfl⟩⟩ := exec_sep_next h <;> rfl
  | eot => obtain ⟨-, ⟨-, -, rfl⟩ | ⟨-, -, rfl⟩ | ⟨-, rfl⟩⟩ := exec_eot_next h <;> rfl
  | ign c => obtain ⟨-, rfl⟩ := exec_ign_next h; rfl

/-- A status makes at most one report (R72). -/
theorem statusReports_cases (st : TxStatus) : statusReports st = [] ∨ statusReports st = [.report .txFailure] := by
  cases st with
  | success => exact .inl rfl
  | failure => exact .inr rfl

/-- `EOT` that goes on makes no output, for want of room, or sends the buffer with the tail pair; a Transmitter that
answers is reported on at most once, and one that does not is not. -/
theorem exec_eot_out {s t : State} (h : exec .eot s = .next t) :
    t.out = s.out ∨ ∃ reports, (reports = [] ∨ reports = [.report .txFailure]) ∧
      t.out = s.out ++ requestOf (s.buf ++ tailWords s.cfg) :: reports := by
  obtain ⟨-, ⟨-, -, rfl⟩ | ⟨-, -, rfl⟩ | ⟨-, rfl⟩⟩ := exec_eot_next h
  · exact .inr ⟨_, statusReports_cases _, rfl⟩
  · exact .inr ⟨[], .inl rfl, rfl⟩
  · exact .inl rfl

/-- What was sent stays sent when `RST` begins a new run (R93). -/
theorem takeRst_sent (c : Cfg) (s : State) : (takeRst c s).sent = s.sent := by
  simp [takeRst_eq]

/-- Settles O33, by the event the step takes: of the instructions only `EOT` makes output, and only a newline is one. -/
theorem onlyEotPublishes : Obligations.OnlyEotPublishes := by
  intro s s' h
  cases stepsTo_of_step h with
  | wait => exact .inl ⟨rfl, .inl rfl⟩
  | rst c l taken => exact .inl ⟨takeRst_sent c _, .inr ⟨⟨c, _, taken⟩, by rw [takeRst_eq]⟩⟩
  | eos l => exact .inl ⟨rfl, .inl rfl⟩
  | char c l t taken _ _ hexec =>
    have hearlier : s'.earlier = s.earlier := (exec_keeps_earlier hexec :)
    have hsilent (hout : s'.out = s.out) : s'.sent = s.sent := by rw [sent_eq, sent_eq, hearlier, hout]
    by_cases heot : decodeChar s.pend c = .eot
    · obtain rfl := newline_of_decodeChar_eot heot
      rw [heot] at hexec
      obtain hout | ⟨reports, hreports, hout⟩ := exec_eot_out hexec
      · exact .inl ⟨hsilent hout, .inl hout⟩
      · exact .inr ⟨⟨_, taken⟩, reports, hreports, hearlier, hout⟩
    · have hout : s'.out = s.out := (exec_keeps_out heot hexec :)
      exact .inl ⟨hsilent hout, .inl hout⟩

/-! ### The text of a byte (R45, R51, R58) -/

/-- The zone in which `hexText` writes a digit. -/
def upperZone (n : Nibble) : Zone := if n.toNat < 10 then .decimal else .upper

theorem hexText_eq (b : Byte) :
    hexText b =
      [hexChar (b.extractLsb' 4 4) (upperZone (b.extractLsb' 4 4)),
        hexChar (b.extractLsb' 0 4) (upperZone (b.extractLsb' 0 4))] := rfl

/-- A digit that `hexText` writes is read as that digit; there are 16. -/
theorem classify_upperDigit : ∀ n : Nibble, classify (hexChar n (upperZone n)) = .hex n (upperZone n) := by
  decide

theorem decodeChar_upperDigit (pend : Bool) (n : Nibble) :
    decodeChar pend (hexChar n (upperZone n)) =
      if pend then .nibl n (upperZone n) else .nibh n (upperZone n) := by
  simp [decodeChar, classify_upperDigit]

/-- The two halves of a byte make it up again. -/
theorem withLowNibble_halves (b : Byte) :
    withLowNibble (highNibble (b.extractLsb' 4 4)) (b.extractLsb' 0 4) = b := by
  ext i hi
  rcases lt_or_ge i 4 with hlow | hhigh
  · simp [withLowNibble, highNibble, hlow, hi]
  · have hshift : i - 4 < 4 := by omega
    simp [withLowNibble, highNibble, Nat.not_lt.2 hhigh, hshift, Nat.add_sub_cancel' hhigh, hi]

/-! ### Room for what is still to come (R33) -/

/-- Room that is enough for more words is enough for fewer. -/
theorem roomFor_of_le {s t : State} {j k : Nat} (h : s.roomFor k = true) (hparams : t.params = s.params)
    (hle : t.buf.length + j ≤ s.buf.length + k) : t.roomFor j = true := by
  refine (roomFor_iff j t).2 fun d hd => hle.trans ?_
  exact (roomFor_iff k s).1 h d (hparams ▸ hd)

theorem bytesWords_length (c : Cfg) (f : List Byte) : (f.flatMap (wireWords c)).length = 16 * f.length := by
  simp [List.length_flatMap, Nat.mul_comm]

/-- The header and the tail pair are 4 words of a frame (R35). -/
theorem frameWords_length (c : Cfg) (f : List Byte) : (frameWords c f).length = 4 + 16 * f.length := by
  simp only [frameWords, List.length_append, bytesWords_length, headerWords, tailWords, List.length_cons,
    List.length_nil]
  omega

/-- The words of a line's frames `f` and `gs` from the first frame's header on (R38). -/
def lineWords (c : Cfg) (f : List Byte) (gs : List (List Byte)) : List Duration :=
  f.flatMap (wireWords c) ++ tailWords c ++ gs.flatMap (frameWords c)

theorem headerWords_lineWords (c : Cfg) (f : List Byte) (gs : List (List Byte)) :
    headerWords c ++ lineWords c f gs = (f :: gs).flatMap (frameWords c) := by
  simp [lineWords, frameWords]

/-- The comma closes the frame `f` and opens `g` (R59). -/
theorem lineWords_cons (c : Cfg) (f g : List Byte) (gs : List (List Byte)) :
    lineWords c f (g :: gs) =
      f.flatMap (wireWords c) ++ (tailWords c ++ headerWords c) ++ lineWords c g gs := by
  simp [lineWords, frameWords]

/-- Room for a line leaves room for its first frame's bytes. -/
theorem roomFor_bytes_of_line {s : State} {c : Cfg} {f : List Byte} {gs : List (List Byte)}
    (hr : s.roomFor (lineWords c f gs).length = true) : s.roomFor (16 * f.length) = true := by
  refine roomFor_of_le hr rfl ?_
  simp only [lineWords, List.length_append, bytesWords_length]
  omega

theorem lineFrames_length (c : Cfg) (frames : List (List Byte)) :
    (frames.flatMap (frameWords c)).length = (frames.map fun f => 4 + 16 * f.length).sum := by
  simp only [List.length_flatMap, frameWords_length]

/-! ### Running a text -/

/-- The next step of a text runs its first character, which leaves the offers. -/
theorem step_of_text {s t : State} {c : Byte} {cs : List Byte} {rest : List Offer} {i : Instr}
    (ha : s.accepting = true) (hi : s.input = charOffers (c :: cs) ++ rest) (hc : decodeChar s.pend c = i)
    (h : exec i s = .next t) : step s = .next { t with input := charOffers cs ++ rest } := by
  obtain ⟨-, hb, -, -⟩ := (accepting_iff s).1 ha
  subst hc
  exact (stepRunsTheDecodedCharacter s c _ hb hi).trans (exec_next_withOffers h _)

/-- A first digit is parked (R55). -/
theorem step_of_highDigit {s : State} {n : Nibble} {cs : List Byte} {rest : List Offer} (ha : s.accepting = true)
    (hp : s.pend = false) (hi : s.input = charOffers (hexChar n (upperZone n) :: cs) ++ rest) :
    step s = .next { s with cur := highNibble n, pend := true, input := charOffers cs ++ rest } :=
  step_of_text ha hi (i := .nibh n (upperZone n)) (by simp [decodeChar_upperDigit, hp]) (execNibh_eq ha hp)

/-- A second digit completes the byte (R56). -/
theorem step_of_lowDigit {s : State} {n : Nibble} {cs : List Byte} {rest : List Offer} (ha : s.accepting = true)
    (hp : s.pend = true) (hr : s.roomFor 16 = true)
    (hi : s.input = charOffers (hexChar n (upperZone n) :: cs) ++ rest) :
    step s = .next { s with
      cur := withLowNibble s.cur n
      buf := s.buf ++ wireWords s.cfg (withLowNibble s.cur n)
      pend := false
      input := charOffers cs ++ rest } := by
  have hexec := execNibl_eq (n := n) ha hp hr
  rw [completeByte_eq] at hexec
  exact step_of_text ha hi (i := .nibl n (upperZone n)) (by simp [decodeChar_upperDigit, hp]) hexec

/-- The text of a byte appends the byte's 16 words. -/
theorem run_hexText {s : State} {b : Byte} {rest : List Offer} (ha : s.accepting = true) (hp : s.pend = false)
    (hr : s.roomFor 16 = true) (hi : s.input = charOffers (hexText b) ++ rest) :
    run 2 s = .next { s with cur := b, buf := s.buf ++ wireWords s.cfg b, input := rest } := by
  rw [hexText_eq] at hi
  have hhigh := step_of_highDigit ha hp hi
  have hlow := step_of_lowDigit (s := { s with
    cur := highNibble (b.extractLsb' 4 4), pend := true
    input := charOffers [hexChar (b.extractLsb' 0 4) (upperZone (b.extractLsb' 0 4))] ++ rest }) ha rfl hr rfl
  rw [withLowNibble_halves] at hlow
  rw [run_succ_of_next 1 hhigh, run_succ_of_next 0 hlow, run_zero, hp]
  rfl

/-- The text of a frame's bytes appends their words in order. What it leaves in `cur` no rule reads. -/
theorem run_bytesText {f : List Byte} {s : State} {rest : List Offer} (ha : s.accepting = true) (hp : s.pend = false)
    (hr : s.roomFor (16 * f.length) = true) (hi : s.input = charOffers (f.flatMap hexText) ++ rest) :
    ∃ v, run (f.flatMap hexText).length s =
      .next { s with cur := v, buf := s.buf ++ f.flatMap (wireWords s.cfg), input := rest } := by
  induction f generalizing s with
  | nil =>
    refine ⟨s.cur, ?_⟩
    have hrest : s.input = rest := hi
    simp [run_zero, ← hrest]
  | cons b f ih =>
    rw [List.flatMap_cons, charOffers_append, List.append_assoc] at hi
    have hbyte := run_hexText ha hp (roomFor_of_le hr rfl (by simp)) hi
    obtain ⟨v, hrun⟩ := ih (s := { s with
      cur := b, buf := s.buf ++ wireWords s.cfg b, input := charOffers (f.flatMap hexText) ++ rest })
      ha hp (roomFor_of_le hr rfl (by simp; omega)) rfl
    refine ⟨v, ?_⟩
    rw [List.flatMap_cons, List.length_append, hexText_eq]
    exact (run_add 2 _ hbyte).trans (by simpa using hrun)

/-! ### A line of frames (R35, R38, R51) -/

/-- At `t` just `rest` is still on offer, the buffer is empty, and the run has sent `train` as one request after the
output `before`. -/
structure SentAsOneBatch (t : State) (before : List Output) (train : List Duration) (rest : List Offer) : Prop where
  offers  : t.input = rest
  emptied : t.buf = []
  request : requests t.out = requests before ++ [⟨train, 38000, ⟨1, 2⟩⟩]

/-- A comma closes a frame and opens the next (R59). -/
theorem step_of_comma {s : State} {cs : List Byte} {rest : List Offer} (ha : s.accepting = true)
    (hr : s.roomFor 4 = true) (hi : s.input = charOffers (0x2C :: cs) ++ rest) :
    step s = .next { s with
      buf := s.buf ++ (tailWords s.cfg ++ headerWords s.cfg), input := charOffers cs ++ rest } :=
  step_of_text ha hi (i := .sep) rfl (execSep_eq ha hr)

/-- A newline sends the buffer with the tail pair as one request. -/
theorem run_newline {s : State} {rest : List Offer} (ha : s.accepting = true) (hr : s.roomFor 2 = true)
    (hs : s.txSilentAt ≠ some s.draws) (hi : s.input = charOffers [0x0A] ++ rest) :
    ∃ t, run 1 s = .next t ∧ SentAsOneBatch t s.out (s.buf ++ tailWords s.cfg) rest := by
  have hanswered : exec .eot s = .next (eotAnswered s) := by rw [exec, execEot_eq ha hr, if_neg hs]
  have hstep := step_of_text ha hi rfl hanswered
  exact ⟨_, run_succ_of_next 0 hstep, rfl, rfl, by simp [eotAnswered]⟩

/-- The rest of a line, from the first frame's bytes on, sends the buffer with the words of the rest. -/
theorem run_lineText {f : List Byte} {gs : List (List Byte)} {s : State} {rest : List Offer}
    (ha : s.accepting = true) (hp : s.pend = false) (hs : s.txSilentAt ≠ some s.draws)
    (hr : s.roomFor (lineWords s.cfg f gs).length = true) (hi : s.input = charOffers (lineText (f :: gs)) ++ rest) :
    ∃ t, run (lineText (f :: gs)).length s = .next t ∧
      SentAsOneBatch t s.out (s.buf ++ lineWords s.cfg f gs) rest := by
  induction gs generalizing f s with
  | nil =>
    rw [lineText, charOffers_append, List.append_assoc] at hi
    obtain ⟨v, hbytes⟩ := run_bytesText ha hp (roomFor_bytes_of_line hr) hi
    obtain ⟨t, hnewline, hsent⟩ := run_newline (s := { s with
      cur := v, buf := s.buf ++ f.flatMap (wireWords s.cfg), input := charOffers [0x0A] ++ rest })
      ha (roomFor_of_le hr rfl (by simp [lineWords, tailWords]; omega)) hs rfl
    refine ⟨t, ?_, ?_⟩
    · rw [lineText, List.length_append]
      exact (run_add _ 1 hbytes).trans hnewline
    · simpa [lineWords] using hsent
  | cons g gs ih =>
    rw [lineText, charOffers_append, List.append_assoc] at hi
    obtain ⟨v, hbytes⟩ := run_bytesText ha hp (roomFor_bytes_of_line hr) hi
    have hcomma := step_of_comma (s := { s with
      cur := v, buf := s.buf ++ f.flatMap (wireWords s.cfg)
      input := charOffers (0x2C :: lineText (g :: gs)) ++ rest })
      ha (roomFor_of_le hr rfl (by simp [lineWords_cons, tailWords, headerWords]; omega)) rfl
    obtain ⟨t, hrest, hsent⟩ := ih (f := g) (s := { s with
      cur := v, buf := s.buf ++ f.flatMap (wireWords s.cfg) ++ (tailWords s.cfg ++ headerWords s.cfg)
      input := charOffers (lineText (g :: gs)) ++ rest })
      ha hp hs (roomFor_of_le hr rfl (by simp [lineWords_cons]; omega)) rfl
    refine ⟨t, ?_, ?_⟩
    · rw [lineText, List.length_append]
      exact (run_add _ _ hbytes).trans ((run_succ_of_next _ hcomma).trans hrest)
    · simpa [lineWords_cons] using hsent

/-- Settles O45: the header pair that the buffer holds is the first frame's. -/
theorem lineSendsItsFrames : Obligations.LineSendsItsFrames := by
  intro frames s rest hne ha hp hb hs hroom hi
  obtain ⟨f, gs, rfl⟩ := List.exists_cons_of_ne_nil hne
  have hwords := headerWords_lineWords s.cfg f gs
  have hr : s.roomFor (lineWords s.cfg f gs).length = true := by
    rw [roomFor_iff, hb, ← List.length_append, hwords, lineFrames_length]
    exact hroom
  obtain ⟨t, hrun, hsent⟩ := run_lineText ha hp hs hr hi
  have hrequest := hsent.request
  rw [hb, hwords] at hrequest
  exact ⟨t, hrun, hsent.offers, hsent.emptied, hrequest, lineFrames_length s.cfg _⟩

/-! ### The textual dump (R30, R76) -/

/-- The label of the word at index `i`. -/
def labelAt (i : Nat) : DumpLabel := if i % 2 = 0 then .pulse else .space

theorem labelAt_add_two (i : Nat) : labelAt (i + 2) = labelAt i := by
  simp [labelAt]

/-- Each line of the dump is its word with the label of the word's index. -/
theorem dumpLines_eq (train : List Duration) : dumpLines train = train.mapIdx fun i d => (labelAt i, d) := by
  induction train using dumpLines.induct with
  | case1 => rfl
  | case2 m => rfl
  | case3 m sp rest ih => simpa [dumpLines, ih, List.mapIdx_cons, labelAt_add_two] using ⟨rfl, rfl⟩

/-- Settles O47: a word-for-word map keeps the number of words and their indices. -/
theorem dumpAlternatesItsLabels : Obligations.DumpAlternatesItsLabels := by
  intro train
  rw [dumpLines_eq]
  exact ⟨List.length_mapIdx, fun i d hd => by rw [List.getElem?_mapIdx, hd]; rfl⟩

end Sys2Proof.Machine
end

section
/-!
PROOFS. The encoding (spec/30_encoding.md): the codes of each class, decode and encode as inverses of each other, and
that ignored characters and the case of letters make no difference.
-/

namespace Sys2Proof

/-! ### The codes of a class (R44, R45) -/

/-- What is added to the value of a digit of the zone to give its code: 0x30 is `0`, 0x37 + 10 is `A`, 0x57 + 10 is `a`
(R45). -/
def Zone.offset (z : Zone) : Nat :=
  match z with
  | .decimal => 0x30
  | .upper => 0x37
  | .lower => 0x57

/-- The codes of a class, as R44's table lists them. -/
def CharClass.HasCode (k : CharClass) (code : Nat) : Prop :=
  match k with
  | .hex n z => z.admits n = true ∧ code = z.offset + n.toNat
  | .comma => code = 0x2C
  | .newline => code = 0x0A
  | .other =>
    code ≤ 0x09 ∨ (0x0B ≤ code ∧ code ≤ 0x2B) ∨ (0x2D ≤ code ∧ code ≤ 0x2F) ∨ (0x3A ≤ code ∧ code ≤ 0x40) ∨
      (0x47 ≤ code ∧ code ≤ 0x60) ∨ 0x67 ≤ code

@[simp] theorem codeIn_iff (lo hi : Nat) (c : Byte) : codeIn lo hi c = true ↔ lo ≤ c.toNat ∧ c.toNat ≤ hi := by
  simp [codeIn]

theorem digitField_toNat (c : Byte) : (digitField c).toNat = c.toNat % 16 := by
  simp [digitField]

/-- The value of a letter digit, as R45 computes it from the digit field. -/
theorem digitField_add_nine_toNat (c : Byte) : (digitField c + 9).toNat = (c.toNat % 16 + 9) % 16 := by
  simp [BitVec.toNat_add, digitField_toNat]

/-- The class a character is given is one that has its code. -/
theorem classify_hasCode (c : Byte) : (classify c).HasCode c.toNat := by
  have hdigit := digitField_toNat c
  have hletter := digitField_add_nine_toNat c
  have hcomma : c = 0x2C ↔ c.toNat = 0x2C := BitVec.toNat_eq
  have hnewline : c = 0x0A ↔ c.toNat = 0x0A := BitVec.toNat_eq
  have hlt : c.toNat < 256 := c.isLt
  unfold classify
  simp only [codeIn_iff, hcomma, hnewline]
  split_ifs <;> simp only [CharClass.HasCode, Zone.admits, Zone.offset, decide_eq_true_eq] <;> omega

/-- The ranges of a hex digit's code (R44). -/
theorem hexCode_range {n : Nibble} {z : Zone} (h : z.admits n = true) :
    let code := z.offset + n.toNat
    (0x30 ≤ code ∧ code ≤ 0x39) ∨ (0x41 ≤ code ∧ code ≤ 0x46) ∨ (0x61 ≤ code ∧ code ≤ 0x66) := by
  have hlt : n.toNat < 16 := n.isLt
  cases z <;> simp only [Zone.admits, Zone.offset, decide_eq_true_eq] at h ⊢ <;> omega

/-- A hex digit's code determines its zone, since the ranges of the zones are apart, and then its value. -/
theorem hexCode_inj {n m : Nibble} {z y : Zone} (hn : z.admits n = true) (hm : y.admits m = true)
    (h : z.offset + n.toNat = y.offset + m.toNat) : n = m ∧ z = y := by
  have hzone : z = y := by
    have hnlt : n.toNat < 16 := n.isLt
    have hmlt : m.toNat < 16 := m.isLt
    cases z <;> cases y <;> simp [Zone.admits, Zone.offset] at hn hm h ⊢ <;> omega
  subst hzone
  exact ⟨BitVec.eq_of_toNat_eq (Nat.add_left_cancel h), rfl⟩

/-- A character has exactly the class whose codes it is among: no code belongs to two classes. -/
theorem classify_eq_iff {c : Byte} {k : CharClass} : classify c = k ↔ k.HasCode c.toNat := by
  refine ⟨fun h => h ▸ classify_hasCode c, fun hk => ?_⟩
  have hc := classify_hasCode c
  cases k with
  | hex n z =>
    obtain ⟨hn, hcode⟩ := hk
    have hrange := hexCode_range hn
    cases hclass : classify c with
    | hex m y =>
      obtain ⟨hm, hcode'⟩ := hclass ▸ hc
      obtain ⟨rfl, rfl⟩ := hexCode_inj hn hm (hcode.symm.trans hcode')
      rfl
    | _ => simp only [hclass, CharClass.HasCode] at hc; omega
  | comma =>
    obtain rfl : c = 0x2C := BitVec.eq_of_toNat_eq hk
    rfl
  | newline =>
    obtain rfl : c = 0x0A := BitVec.eq_of_toNat_eq hk
    rfl
  | other =>
    simp only [CharClass.HasCode] at hk
    cases hclass : classify c with
    | hex m y =>
      obtain ⟨hm, hcode⟩ := hclass ▸ hc
      have hrange := hexCode_range hm
      omega
    | other => rfl
    | _ => simp only [hclass, CharClass.HasCode] at hc; omega

theorem classify_eq_comma_iff {c : Byte} : classify c = .comma ↔ c = 0x2C := by
  rw [classify_eq_iff, BitVec.toNat_eq]
  rfl

theorem classify_eq_newline_iff {c : Byte} : classify c = .newline ↔ c = 0x0A := by
  rw [classify_eq_iff, BitVec.toNat_eq]
  rfl

/-- `isOther` tests for the codes of R44's last row. -/
theorem isOther_iff (c : Byte) : isOther c = true ↔ classify c = .other := by
  have hlt : c.toNat ≤ 0xFF := Nat.le_of_lt_succ c.isLt
  simp [classify_eq_iff, CharClass.HasCode, isOther, otherRanges, hlt]

/-! ### The character of an instruction (R43, R45, R49) -/

/-- R45's table of glyphs: the zone bits and the digit field make up the code. There are 22 digits. -/
theorem hexChar_toNat {n : Nibble} {z : Zone} (h : z.admits n = true) : (hexChar n z).toNat = z.offset + n.toNat := by
  revert n
  cases z <;> decide

theorem classify_hexChar {n : Nibble} {z : Zone} (h : z.admits n = true) : classify (hexChar n z) = .hex n z :=
  classify_eq_iff.2 ⟨h, hexChar_toNat h⟩

/-- A character read as a hex digit is the digit written in its zone. -/
theorem hexChar_of_classify {c : Byte} {n : Nibble} {z : Zone} (h : classify c = .hex n z) : hexChar n z = c := by
  obtain ⟨hn, hcode⟩ := classify_eq_iff.1 h
  exact BitVec.eq_of_toNat_eq ((hexChar_toNat hn).trans hcode.symm)

/-- The instruction of each class in the mode `pend` (R44's last column). -/
def CharClass.instr (k : CharClass) (pend : Bool) (c : Byte) : Instr :=
  match k with
  | .hex n z => if pend then .nibl n z else .nibh n z
  | .comma => .sep
  | .newline => .eot
  | .other => .ign c

theorem decodeChar_eq {c : Byte} {k : CharClass} (pend : Bool) (h : classify c = k) :
    decodeChar pend c = k.instr pend c := by
  subst h
  rfl

/-- The decoder reads a well-formed instruction of the mode back from its character. -/
theorem decodeChar_encodeChar {i : Instr} {pend : Bool} (hw : i.wellFormed = true) (hm : i.inMode pend = true) :
    decodeChar pend (encodeChar i) = i := by
  cases i with
  | nibh n z =>
    obtain rfl : pend = false := by simpa [Instr.inMode] using hm
    exact decodeChar_eq false (classify_hexChar hw)
  | nibl n z =>
    obtain rfl : pend = true := hm
    exact decodeChar_eq true (classify_hexChar hw)
  | sep => rfl
  | eot => rfl
  | ign c => exact decodeChar_eq pend ((isOther_iff c).1 hw)

/-- Settles O5: the decoder looks at the first character only, and an instruction is one character. -/
theorem decodeOfEncodeIsTheInstruction : Obligations.DecodeOfEncodeIsTheInstruction := by
  intro i pend rest hw hm
  have hfirst : decode pend (encode i ++ rest) = .instr (decodeChar pend (encodeChar i)) rest := rfl
  rw [hfirst, decodeChar_encodeChar hw hm]

/-- The instruction a character is read as has that character. -/
theorem encodeChar_decodeChar (pend : Bool) (c : Byte) : encodeChar (decodeChar pend c) = c := by
  rw [decodeChar_eq pend rfl]
  cases hclass : classify c with
  | hex n z => cases pend <;> exact hexChar_of_classify hclass
  | comma => exact (classify_eq_comma_iff.1 hclass).symm
  | newline => exact (classify_eq_newline_iff.1 hclass).symm
  | other => rfl

theorem decodeChar_wellFormed (pend : Bool) (c : Byte) : (decodeChar pend c).wellFormed = true := by
  rw [decodeChar_eq pend rfl]
  cases hclass : classify c with
  | hex n z =>
    obtain ⟨hn, -⟩ := classify_eq_iff.1 hclass
    cases pend <;> exact hn
  | comma => rfl
  | newline => rfl
  | other => exact (isOther_iff c).2 hclass

/-- Settles O6: the decoder answers with an instruction of its mode, and each class's instruction keeps what its
character is made of. -/
theorem encodeOfDecodeIsTheCharacter : Obligations.EncodeOfDecodeIsTheCharacter := by
  intro pend c rest
  have hmode := Machine.decodeChar_inMode pend c
  refine ⟨decodeChar pend c, rfl, congrArg (fun d => [d]) (encodeChar_decodeChar pend c), ?_, hmode⟩
  exact decodeChar_wellFormed pend c

/-! ### The classes and the values of the digits (R44 to R46, R49) -/

/-- Settles O1: each word is read by its class. -/
theorem charactersOfTheTableDecode : Obligations.CharactersOfTheTableDecode :=
  ⟨rfl, rfl, rfl, rfl, rfl, rfl, rfl, rfl, rfl, rfl⟩

/-- The hex digits are the characters of R44's three ranges. -/
theorem classify_hex_iff_range (c : Byte) :
    (∃ n z, classify c = .hex n z) ↔
      (0x30 ≤ c.toNat ∧ c.toNat ≤ 0x39) ∨ (0x41 ≤ c.toNat ∧ c.toNat ≤ 0x46) ∨ (0x61 ≤ c.toNat ∧ c.toNat ≤ 0x66) := by
  constructor
  · rintro ⟨n, z, h⟩
    obtain ⟨hn, hcode⟩ := classify_eq_iff.1 h
    rw [hcode]
    exact hexCode_range hn
  · intro hrange
    have hc := classify_hasCode c
    cases hclass : classify c with
    | hex n z => exact ⟨n, z, rfl⟩
    | _ => simp only [hclass, CharClass.HasCode] at hc; omega

/-- Settles O2: the codes of each class are those of the table, the decoder goes by the class, and the counts are
of the 256 codes one by one. -/
theorem classesPartitionTheCodes : Obligations.ClassesPartitionTheCodes := by
  refine ⟨fun c => ?ranges, fun c pend => ?instr, ?counts⟩
  case ranges => exact ⟨classify_hex_iff_range c, classify_eq_comma_iff, classify_eq_newline_iff, classify_eq_iff⟩
  case instr => exact ⟨fun _ _ => decodeChar_eq pend, decodeChar_eq pend, decodeChar_eq pend, decodeChar_eq pend⟩
  case counts => decide +kernel

/-- A capital letter and the small letter 0x20 above it have the same value (R46). -/
theorem classify_letter {c : Byte} (hA : 0x41 ≤ c.toNat) (hF : c.toNat ≤ 0x46) :
    ∃ n, classify c = .hex n .upper ∧ classify (c + 0x20) = .hex n .lower := by
  have hvalue : (BitVec.ofNat 4 (c.toNat - 0x37)).toNat = c.toNat - 0x37 := by
    rw [BitVec.toNat_ofNat]
    omega
  have hsmall : (c + 0x20).toNat = c.toNat + 0x20 := by
    have hfits : c.toNat + (0x20 : Byte).toNat < 2 ^ 8 := lt_of_le_of_lt (Nat.add_le_add_right hF _) (by decide)
    exact BitVec.toNat_add_of_lt hfits
  refine ⟨BitVec.ofNat 4 (c.toNat - 0x37), classify_eq_iff.2 ?_, classify_eq_iff.2 ?_⟩
  · simp only [CharClass.HasCode, Zone.admits, Zone.offset, decide_eq_true_eq, hvalue]
    omega
  · simp only [CharClass.HasCode, Zone.admits, Zone.offset, decide_eq_true_eq, hvalue, hsmall]
    omega

/-- Settles O3: the code is the zone's offset and the value together, and the ranges of the zones are apart. -/
theorem nibbleValueOfEveryDigit : Obligations.NibbleValueOfEveryDigit := by
  refine ⟨fun c n z h => ?_, fun c => classify_letter⟩
  obtain ⟨hn, hcode⟩ := classify_eq_iff.1 h
  have hlt : n.toNat < 16 := n.isLt
  cases z <;> simp only [Zone.admits, Zone.offset, decide_eq_true_eq] at hn hcode <;> split_ifs <;> omega

/-- Settles O4: the mode bit stands in the instruction of a hex digit only. -/
theorem pendSelectsTheHexInstruction : Obligations.PendSelectsTheHexInstruction := by
  refine ⟨fun c n z h => ⟨decodeChar_eq false h, decodeChar_eq true h⟩, fun c hno => ?_, fun _ _ _ => rfl⟩
  cases hclass : classify c with
  | hex n z => exact absurd hclass (hno n z)
  | _ => exact (decodeChar_eq false hclass).trans (decodeChar_eq true hclass).symm

end Sys2Proof

namespace Sys2Proof.Machine

/-! ### Ignored characters and the case of letters (R46, R51, R64) -/

/-- A letter in either case is read as the digit of the same value, and no digit's meaning depends on its zone. -/
theorem exec_decodeChar_foldCase (pend : Bool) (c : Byte) (s : State) :
    exec (decodeChar pend (foldCase c)) s = exec (decodeChar pend c) s := by
  cases hsmall : codeIn 0x61 0x66 c with
  | true =>
    obtain ⟨hlow, hhigh⟩ := (codeIn_iff 0x61 0x66 c).1 hsmall
    have hcapital : (c - 0x20).toNat = c.toNat - 0x20 := by
      have hle : (0x20 : Byte) ≤ c := by
        rw [BitVec.le_def]
        exact le_trans (by decide) hlow
      exact BitVec.toNat_sub_of_le hle
    obtain ⟨n, hupper, hlower⟩ := classify_letter (c := c - 0x20) (by omega) (by omega)
    rw [BitVec.sub_add_cancel] at hlower
    rw [foldCase, if_pos hsmall, decodeChar_eq pend hupper, decodeChar_eq pend hlower]
    cases pend <;> rfl
  | false => rw [foldCase, if_neg (by simp [hsmall])]

/-- With a `Transmit` outstanding a run waits (R75). -/
theorem run_of_busy {s : State} (hb : s.busy = true) (k : Nat) : run k s = .next s := by
  induction k with
  | zero => rfl
  | succ k ih =>
    have hwait : step s = .next s := by simp [step, takeEvent, hb]
    rw [run_succ_of_next k hwait, ih]

/-- A text makes no block accepting: one that accepts events after a text accepted them before it. -/
theorem accepting_of_run_text {text : List Byte} {s t : State} {rest : List Offer}
    (hi : s.input = charOffers text ++ rest) (hrun : run text.length s = .next t) (ht : t.accepting = true) :
    s.accepting = true := by
  cases text with
  | nil => cases hrun; exact ht
  | cons c cs =>
    cases hb : s.busy with
    | true =>
      cases (run_of_busy hb _).symm.trans hrun
      exact ht
    | false =>
      by_contra hna
      have hstep := stepRunsTheDecodedCharacter s c _ hb hi
      have hrefused := exec_of_not_accepting (decodeChar s.pend c) (s := { s with input := charOffers cs ++ rest })
        (Bool.eq_false_iff.2 hna)
      exact nomatch (run_succ_of_refused cs.length (hstep.trans hrefused)).symm.trans hrun

theorem plainText_of_other {c : Byte} (h : isOther c = true) (cs : List Byte) :
    plainText (c :: cs) = plainText cs := by
  simp [plainText, h]

theorem plainText_of_not_other {c : Byte} (h : isOther c = false) (cs : List Byte) :
    plainText (c :: cs) = foldCase c :: plainText cs := by
  simp [plainText, h]

/-- Settles O50, by induction on the text: an ignored character is a step that leaves the block as it was, and any other
is a step to the same state as its capital. -/
theorem plainTextActsAsTheText : Obligations.PlainTextActsAsTheText := by
  intro text
  induction text with
  | nil =>
    intro s t rest hi hrun _
    cases s
    cases hi
    exact hrun
  | cons c cs ih =>
    intro s t rest hi hrun ht
    have ha : s.accepting = true :=
      accepting_of_run_text (s := { s with input := charOffers (plainText (c :: cs)) ++ rest }) rfl hrun ht
    cases hother : isOther c with
    | true =>
      rw [plainText_of_other hother] at hrun
      have hign := decodeChar_eq s.pend ((isOther_iff c).1 hother)
      have hstep := step_of_text ha hi hign (guarded_of_accepting ha)
      exact (run_succ_of_next _ hstep).trans (ih _ t rest rfl hrun ht)
    | false =>
      rw [plainText_of_not_other hother] at hrun
      obtain ⟨u, hu⟩ := exec_goes_on ha (decodeChar_inMode s.pend c)
      have hplain := step_of_text (s := { s with input := charOffers (foldCase c :: plainText cs) ++ rest })
        ha rfl rfl (exec_next_withOffers ((exec_decodeChar_foldCase s.pend c s).trans hu) _)
      have hstep := step_of_text ha hi rfl hu
      rw [List.length_cons, run_succ_of_next _ hplain] at hrun
      exact (run_succ_of_next _ hstep).trans (ih _ t rest rfl hrun ht)

end Sys2Proof.Machine
end

section
/-!
PROOFS. The hex digits (spec/40_hex_digits.md): what `NIBH` and `NIBL` do and leave unchanged, that a digit pair makes a
byte, and the wire order of its bits.
-/

namespace Sys2Proof.Machine

/-! ### The parking and the completing of a byte (R55, R56) -/

/-- Settles O13: the decoder reads a hex digit by its class and the mode, and no capacity check guards the parking. -/
theorem nibhParksTheHighNibble : Obligations.NibhParksTheHighNibble :=
  ⟨fun _ _ _ => decodeChar_eq false, fun _ _ _ => execNibh_eq⟩

theorem exec_nibl_of_room {n : Nibble} {z : Zone} {s : State} (ha : s.accepting = true) (hp : s.pend = true)
    (hroom : s.roomFor 16 = true) :
    exec (.nibl n z) s =
      .next { s with
        cur := withLowNibble s.cur n
        buf := s.buf ++ wireWords s.cfg (withLowNibble s.cur n)
        pend := false } := by
  rw [exec, execNibl_eq ha hp hroom, completeByte_eq]

/-- Settles O14: with room the byte is completed, and without it only `BufOverflow` is raised. -/
theorem niblCompletesTheByte : Obligations.NiblCompletesTheByte := by
  refine ⟨fun c n z => decodeChar_eq true, fun n z s ha hp hroom => ?room, fun n z s d ha hp hd hfull => ?full⟩
  case room => exact exec_nibl_of_room ha hp ((roomFor_iff 16 s).2 hroom)
  case full => exact exec_nibl_of_full ha hp (roomFor_eq_false hd hfull)

/-! ### The value of a digit pair (R58) -/

/-- The parked nibble is 16 times its value: no bit of it is shifted out. -/
theorem highNibble_toNat (n : Nibble) : (highNibble n).toNat = n.toNat <<< 4 := by
  have hlt : n.toNat < 16 := n.isLt
  simp only [highNibble, BitVec.toNat_shiftLeft, BitVec.toNat_setWidth, Nat.shiftLeft_eq]
  omega

/-- The low nibble is `or`ed to a multiple of 16 that it is below, so it is added. -/
theorem digitPair_toNat (x y : Nibble) : (withLowNibble (highNibble x) y).toNat = 16 * x.toNat + y.toNat := by
  have hlow : (y.setWidth 8).toNat = y.toNat := BitVec.toNat_setWidth_of_le (by decide)
  rw [withLowNibble, BitVec.toNat_or, highNibble_toNat, hlow, ← Nat.shiftLeft_add_eq_or_of_lt y.isLt,
    Nat.shiftLeft_eq, Nat.mul_comm]

/-- Settles O24: the first digit takes no room, so the room for the byte is still there at the second. -/
theorem digitPairMakesAByte : Obligations.DigitPairMakesAByte := by
  intro x y zx zy s ha hp hroom
  have hlow := exec_nibl_of_room (n := y) (z := zy) (s := { s with cur := highNibble x, pend := true })
    ha rfl ((roomFor_iff 16 s).2 hroom)
  exact ⟨_, _, execNibh_eq ha hp, hlow, digitPair_toNat x y, rfl, rfl⟩

/-! ### Frames (R55, R56, R59, R64, R71) -/

/-- `NIBH` and `IGN` write nothing but `cur` and `pend`, and `IGN` writes not even these. -/
theorem exec_nibh_or_ign_next {i : Instr} {s t : State} (hi : (∃ n z, i = .nibh n z) ∨ ∃ c, i = .ign c)
    (h : exec i s = .next t) :
    ∃ v p, t = { s with cur := v, pend := p } ∧ ((∃ c, i = .ign c) → v = s.cur ∧ p = s.pend) := by
  obtain ⟨n, z, rfl⟩ | ⟨c, rfl⟩ := hi
  · obtain ⟨-, -, rfl⟩ := exec_nibh_next h
    exact ⟨_, _, rfl, fun ⟨_, hne⟩ => nomatch hne⟩
  · obtain ⟨-, rfl⟩ := exec_ign_next h
    exact ⟨_, _, rfl, fun _ => ⟨rfl, rfl⟩⟩

/-- Settles O27: the buffer is none of the two fields that may be written. -/
theorem frameOfNibhAndIgn : Obligations.FrameOfNibhAndIgn := by
  intro i s t hi h
  obtain ⟨v, p, rfl, hign⟩ := exec_nibh_or_ign_next hi h
  exact ⟨fun _ => rfl, rfl, rfl, rfl, rfl, rfl, rfl, rfl, rfl, rfl, rfl, rfl, rfl, rfl, hign⟩

/-- Words appended at `len` leave every word outside them alone. -/
theorem read_append_other (m w : Memory) {a : Nat} (ha : a < m.length ∨ m.length + w.length ≤ a) :
    Memory.read (m ++ w) a = Memory.read m a := by
  rw [← write_at_len m w]
  exact read_write_other m m.length a w le_rfl ha

/-- `NIBL` and `SEP` append their 16 or 4 words and write nothing but `cur` and `pend` besides, which `SEP` does not
write, or raise `BufOverflow` and do nothing else. -/
theorem exec_nibl_or_sep_next {i : Instr} {k : Nat} {s t : State}
    (hi : ((∃ n z, i = .nibl n z) ∧ k = 16) ∨ (i = .sep ∧ k = 4)) (h : exec i s = .next t) :
    (∃ v p w, w.length = k ∧ t = { s with cur := v, pend := p, buf := s.buf ++ w } ∧
        (i = .sep → v = s.cur ∧ p = s.pend)) ∨
      t = { s with fault := .bufOverflow } := by
  obtain ⟨⟨n, z, rfl⟩, rfl⟩ | ⟨rfl, rfl⟩ := hi
  · obtain ⟨-, -, ⟨-, rfl⟩ | ⟨-, rfl⟩⟩ := exec_nibl_next h
    · exact .inl ⟨_, _, _, wireWords_length _ _, rfl, nofun⟩
    · exact .inr rfl
  · obtain ⟨-, ⟨-, rfl⟩ | ⟨-, rfl⟩⟩ := exec_sep_next h
    · exact .inl ⟨_, _, tailWords s.cfg ++ headerWords s.cfg, rfl, rfl, fun _ => ⟨rfl, rfl⟩⟩
    · exact .inr rfl

/-- Settles O28: what is stored is stored at `len`, so the words before it and the indices after it read as before. -/
theorem frameOfNiblAndSep : Obligations.FrameOfNiblAndSep := by
  intro i k s t hi h
  obtain ⟨v, p, w, rfl, rfl, hsep⟩ | rfl := exec_nibl_or_sep_next hi h
  · have hlen : (s.buf ++ w).length = s.len + w.length := List.length_append
    exact ⟨fun _ ha => read_append_other s.buf w ha, .inl ⟨hlen, rfl⟩,
      rfl, rfl, rfl, rfl, rfl, rfl, rfl, rfl, rfl, rfl, rfl, hsep⟩
  · exact ⟨fun _ _ => rfl, .inr rfl, rfl, rfl, rfl, rfl, rfl, rfl, rfl, rfl, rfl, rfl, rfl, fun _ => ⟨rfl, rfl⟩⟩

/-! ### The wire order of the bits (R54, R57) -/

/-- Position `k` in encounter order is loop position `7 - k`. -/
theorem positions_getElem? {k : Nat} (hk : k < 8) : positions[k]? = some (7 - k) := by
  revert k
  decide

theorem mem_positions_lt {pos : Nat} (h : pos ∈ positions) : pos < 8 := by
  revert pos
  decide

theorem expandByte_getElem? (b : Byte) (swap : Bool) {k : Nat} (hk : k < 8) :
    (expandByte b swap)[k]? = some (if b.getLsbD (bitIndex swap (7 - k)) then .one else .zero) := by
  rw [expandByte, List.getElem?_map, positions_getElem? hk, Option.map_some]

/-- With swap the loop tests the bits that it tests without swap from the other end. -/
theorem expandByte_swap (b : Byte) : expandByte b true = (expandByte b false).reverse := by
  have hmirror : positions.map (bitIndex true) = (positions.map (bitIndex false)).reverse := by decide
  have hsymbols (swap : Bool) : expandByte b swap =
      (positions.map (bitIndex swap)).map fun j => if b.getLsbD j then .one else .zero := by
    rw [List.map_map]
    rfl
  rw [hsymbols true, hmirror, List.map_reverse, ← hsymbols false]

/-- Settles O23: symbol `k` is read off at loop position `7 - k`, and the swap mirrors the index of the tested bit. -/
theorem wireOrderOfTheBits : Obligations.WireOrderOfTheBits := by
  intro b
  refine ⟨fun k hk => expandByte_getElem? b false hk, fun k hk => ?swap, rfl, expandByte_swap b, fun hsame => ?same⟩
  case swap =>
    have hbit : bitIndex true (7 - k) = k := Nat.sub_sub_self (Nat.le_of_lt_succ hk)
    rw [expandByte_getElem? b true hk, hbit]
  case same =>
    refine List.map_congr_left fun pos hpos => ?_
    have hbit : b.getLsbD (bitIndex true pos) = b.getLsbD (bitIndex false pos) :=
      (hsame pos (mem_positions_lt hpos)).symm
    rw [hbit]

end Sys2Proof.Machine
end

section
/-!
PROOFS. The delimiters (spec/41_delimiters.md): what `SEP` and `EOT` do and leave unchanged, the parameter
`EOT_CLEARS_PEND`, the delimiter state machine, and the shape of a batch.
-/

namespace Sys2Proof.Machine

/-! ### The closing of a frame (R59) -/

/-- Settles O15: the comma's class gives `SEP` in both modes; with room the two pairs are appended, and without it only
`BufOverflow` is raised. -/
theorem sepClosesAndOpensAFrame : Obligations.SepClosesAndOpensAFrame := by
  refine ⟨fun pend => ?decoding, fun s ha hroom => ?room, fun s d ha hd hfull => ?full⟩
  case decoding => exact decodeChar_eq pend (classify_eq_comma_iff.2 rfl)
  case room => exact execSep_eq ha ((roomFor_iff 4 s).2 hroom)
  case full => exact exec_sep_of_full ha (roomFor_eq_false hd hfull)

/-! ### The dispatch (R60, R62) -/

theorem exec_eot_of_answers {s : State} (ha : s.accepting = true) (hroom : s.roomFor 2 = true)
    (hs : s.txSilentAt ≠ some s.draws) : exec .eot s = .next (eotAnswered s) := by
  rw [exec, execEot_eq ha hroom, if_neg hs]

/-- Settles O16: the request and the report of the drawn status are the answered `EOT`'s output. -/
theorem eotDispatchesTheBatch : Obligations.EotDispatchesTheBatch := by
  intro s ha hroom hs
  rw [exec_eot_of_answers ha ((roomFor_iff 2 s).2 hroom) hs, eotAnswered, statusReports_ofWord, List.append_cons]
  rfl

/-- An answered `EOT` sets no `pend`, under either value of the parameter (R61). -/
theorem eotAnswered_pend_clear {s : State} (hp : s.pend = false) : (eotAnswered s).pend = false := by
  simp [eotAnswered, hp]

/-- Settles O25: the digit pair after the newline runs on an emptied buffer, to which only the second digit appends. -/
theorem noHeaderAfterANewline : Obligations.NoHeaderAfterANewline := by
  intro x y zx zy s ha hroom hs hp
  have heot := exec_eot_of_answers ha ((roomFor_iff 2 s).2 fun d hd => (hroom d hd).1) hs
  have hhigh := execNibh_eq (n := x) (s := eotAnswered s) ha (eotAnswered_pend_clear hp)
  have hroom16 : (eotAnswered s).roomFor 16 = true := (roomFor_iff 16 _).2 fun d hd => (hroom d hd).2
  have hlow := exec_nibl_of_room (n := y) (z := zy)
    (s := { eotAnswered s with cur := highNibble x, pend := true }) ha rfl hroom16
  exact ⟨_, _, _, heot, rfl, hhigh, rfl, hlow, rfl⟩

/-! ### The parameter `EOT_CLEARS_PEND` (R61) -/

/-- The state with `b` as its parameter `EOT_CLEARS_PEND`. -/
def State.setClearsPend (b : Bool) (s : State) : State := { s with params := { s.params with eotClearsPend := b } }

/-- With no nibble pending the parameter clears a flag that is clear. -/
theorem transmit_setClearsPend {s : State} (b : Bool) (train : List Duration) (hp : s.pend = false) :
    (s.setClearsPend b).transmit train = (s.transmit train).setClearsPend b := by
  by_cases hs : s.txSilentAt = some s.draws
  · rw [transmit_of_silent train hs, transmit_of_silent train (s := s.setClearsPend b) hs]
    rfl
  · rw [transmit_of_answers train hs, transmit_of_answers train (s := s.setClearsPend b) hs]
    simp [State.setClearsPend, hp]

/-- With no nibble pending `EOT` does the same under either value: its guard, check and append do not read the parameter. -/
theorem exec_eot_agrees_on_clearsPend {s : State} (b : Bool) (hp : s.pend = false) :
    Agree (fun t u => u = t.setClearsPend b) (exec .eot s) (exec .eot (s.setClearsPend b)) := by
  refine agree_guarded rfl rfl (agree_withRoom rfl rfl ?_)
  have hp' : (s.appendSym .tail).pend = false := by rwa [appendSym_tail]
  have htail : (s.setClearsPend b).appendSym .tail = (s.appendSym .tail).setClearsPend b := by
    rw [appendSym_tail, appendSym_tail]
    rfl
  rw [htail, dispatchBatch_eq, dispatchBatch_eq, transmit_setClearsPend b _ hp']
  exact agree_next rfl

/-- Settles O26: the only use of the parameter is to clear a flag, and the flag is clear. -/
theorem clearsPendParameterUnseenAtEvenCount : Obligations.ClearsPendParameterUnseenAtEvenCount :=
  fun _ b hp => exec_eot_agrees_on_clearsPend b hp

/-! ### The frame of `EOT` (R60, R61, R71, R75) -/

/-- `EOT` writes nothing but the buffer, the run's output, which it adds to, `pend`, `busy`, `fault` and the model's
counter `draws`. -/
theorem exec_eot_writes {s t : State} (h : exec .eot s = .next t) :
    ∃ m outs p w f n, t = { s with buf := m, out := s.out ++ outs, pend := p, busy := w, fault := f, draws := n } := by
  obtain ⟨-, ⟨-, -, rfl⟩ | ⟨-, -, rfl⟩ | ⟨-, rfl⟩⟩ := exec_eot_next h
  · exact ⟨_, _, _, _, _, _, rfl⟩
  · exact ⟨_, _, _, _, _, _, rfl⟩
  · exact ⟨_, [], _, _, _, _, by rw [List.append_nil]⟩

/-- `EOT` changes `pend` by clearing it under the parameter only. -/
theorem exec_eot_pend {s t : State} (h : exec .eot s = .next t) :
    t.pend = s.pend ∨ (s.params.eotClearsPend = true ∧ t.pend = false) := by
  obtain hsame | ⟨n, z, hdigit⟩ | ⟨-, hcleared⟩ := exec_pend h
  · exact .inl hsame
  · simp at hdigit
  · exact .inr hcleared

/-- An answered `EOT` leaves the buffer empty, an unanswered one leaves every word outside the tail pair at `len` alone,
and one without room sets `fault` alone. -/
theorem exec_eot_outcome {s t : State} (h : exec .eot s = .next t) :
    (t.fault = s.fault ∧ t.busy = false ∧ t.buf = []) ∨
      (t.fault = s.fault ∧ t.busy = true ∧
        ∀ a, a < s.len ∨ s.len + 2 ≤ a → Memory.read t.buf a = Memory.read s.buf a) ∨
      t = { s with fault := .bufOverflow } := by
  obtain ⟨ha, ⟨-, -, rfl⟩ | ⟨-, -, rfl⟩ | ⟨-, rfl⟩⟩ := exec_eot_next h
  · obtain ⟨-, hbusy, -, -⟩ := (accepting_iff s).1 ha
    exact .inl ⟨rfl, hbusy, rfl⟩
  · exact .inr (.inl ⟨rfl, rfl, fun _ => read_append_other s.buf (tailWords s.cfg)⟩)
  · exact .inr (.inr rfl)

/-- Settles O29: the fields that must be kept are none of those written, and the output is only added to. -/
theorem frameOfEot : Obligations.FrameOfEot := by
  intro s t h
  have hpend := exec_eot_pend h
  have hkept (hno : s.params.eotClearsPend = false) : t.pend = s.pend :=
    hpend.resolve_right fun ⟨hclears, _⟩ => by simp [hno] at hclears
  have houtcome := exec_eot_outcome h
  obtain ⟨m, outs, p, w, f, n, rfl⟩ := exec_eot_writes h
  exact ⟨rfl, rfl, rfl, rfl, rfl, rfl, rfl, rfl, rfl, ⟨outs, rfl⟩, hkept, hpend.imp_right And.right, houtcome⟩

/-! ### The delimiter state machine (R63) -/

theorem IsOpen.append_byte {c : Cfg} {m : Memory} (h : IsOpen c m) (b : Byte) : IsOpen c (m ++ wireWords c b) := by
  obtain ⟨before, bytes, rfl⟩ := h
  exact ⟨before, bytes ++ [b], by simp⟩

theorem IsBare.append_byte {c : Cfg} {m : Memory} (h : IsBare c m) (b : Byte) : IsBare c (m ++ wireWords c b) := by
  obtain ⟨bytes, rfl⟩ := h
  exact ⟨bytes ++ [b], by simp⟩

/-- A header pair opens the buffer, whatever stands before it. -/
theorem isOpen_append_headerWords (c : Cfg) (m : Memory) : IsOpen c (m ++ headerWords c) := ⟨m, [], by simp⟩

theorem isBare_nil (c : Cfg) : IsBare c [] := ⟨[], rfl⟩

/-- Settles O36, by the instruction: `NIBL` appends a byte group, `SEP` appends a header pair last, and an answered `EOT`
empties the buffer. -/
theorem delimiterMachineTransitions : Obligations.DelimiterMachineTransitions := by
  refine ⟨fun i s t h hfault hbusy => ?instruction, fun c s => ?reset⟩
  case reset =>
    rw [takeRst_eq]
    exact isOpen_append_headerWords c []
  case instruction =>
    cases i with
    | nibh n z => obtain ⟨-, -, rfl⟩ := exec_nibh_next h; rfl
    | nibl n z =>
      obtain ⟨-, -, ⟨-, rfl⟩ | ⟨-, rfl⟩⟩ := exec_nibl_next h
      · exact ⟨fun hopen => hopen.append_byte _, fun hbare => hbare.append_byte _⟩
      · cases hfault
    | sep =>
      obtain ⟨-, ⟨-, rfl⟩ | ⟨-, rfl⟩⟩ := exec_sep_next h
      · simpa using isOpen_append_headerWords s.cfg (s.buf ++ tailWords s.cfg)
      · cases hfault
    | eot =>
      obtain ⟨-, ⟨-, -, rfl⟩ | ⟨-, -, rfl⟩ | ⟨-, rfl⟩⟩ := exec_eot_next h
      · exact isBare_nil _
      · cases hbusy
      · cases hfault
    | ign c => obtain ⟨-, rfl⟩ := exec_ign_next h; rfl

/-! ### The shape of a batch (R60(d), R77) -/

/-- The buffer with the tail pair, as one request with the reports after it, has the shape when the buffer has
even length. -/
theorem BatchShape.sentBatch {s t : State} {reports : List Output} (h : BatchShape s) (heven : s.len % 2 = 0)
    (hreports : requests reports = [])
    (hsent : t.sent = s.sent ++ requestOf (s.buf ++ tailWords s.cfg) :: reports) : BatchShape t := by
  intro r hmem
  have hcases : r ∈ requests s.sent ∨ r = ⟨s.buf ++ tailWords s.cfg, 38000, ⟨1, 2⟩⟩ := by
    rw [hsent, requests_append, requests_requestOf, hreports] at hmem
    simpa only [List.mem_append, List.mem_singleton] using hmem
  obtain hold | rfl := hcases
  · exact h r hold
  · have hlen : (s.buf ++ tailWords s.cfg).length = s.len + 2 := List.length_append
    exact ⟨by rw [hlen]; omega, by rw [hlen]; omega, rfl, rfl⟩

/-- Settles O41: a step sends nothing, or the buffer with the tail pair, and the buffer has even length by the
invariants. -/
theorem stepKeepsTheBatchShape : Obligations.StepKeepsTheBatchShape := by
  refine ⟨nofun, fun s s' hinv hs h => ?_⟩
  obtain ⟨hsent, -⟩ | ⟨-, reports, hreports, hearlier, hout⟩ := onlyEotPublishes s s' h
  · rwa [BatchShape, hsent]
  · have hnone : requests reports = [] := by rcases hreports with rfl | rfl <;> rfl
    refine hs.sentBatch hinv.lenEven hnone ?_
    rw [sent_eq, sent_eq, hearlier, hout, List.append_assoc]
    rfl

end Sys2Proof.Machine
end

section
/-!
PROOFS. The ignored characters and the end of the stream (spec/42_ignored_and_stream_end.md): what `IGN` and `EOS` do,
which events a block that is not accepting refuses, and how a run ends.
-/

namespace Sys2Proof.Machine

/-! ### The ignored characters (R64) -/

/-- Settles O18: the codes of R44's last row are those of the class `OTHER`, and `IGN` has nothing to do but to pass its
guard. -/
theorem ignChangesNothing : Obligations.IgnChangesNothing :=
  ⟨fun pend c hother => decodeChar_eq pend ((isOther_iff c).1 hother), fun _ _ ha => guarded_of_accepting ha⟩

/-! ### The end of the stream (R65) -/

/-- With no `Transmit` outstanding, an `EOS` offered next is taken, and it leaves the offers (R26). -/
theorem step_of_eos_offered {s : State} {rest : List Offer} (hb : s.busy = false) (hi : s.input = .stream .eos :: rest) :
    step s = takeEos (s.setInput rest) := by
  simp [step, takeEvent, hb, hi]

/-- Settles O19: the offered `EOS` passes its guard, and its meaning is one write. -/
theorem eosHaltsAndNothingElse : Obligations.EosHaltsAndNothingElse := by
  intro s rest ha hi
  obtain ⟨-, hb, -, -⟩ := (accepting_iff s).1 ha
  have haccepts : (s.setInput rest).accepting = true := ha
  rw [step_of_eos_offered hb hi, takeEos, guarded_of_accepting haccepts]
  rfl

/-! ### What a block that is not accepting refuses (R66, R90) -/

/-- With no `Transmit` outstanding, a block that is not accepting refuses a character and `EOS` alike. -/
theorem step_of_stream_not_accepting {s : State} {e : StreamEvent} {rest : List Offer} (hb : s.busy = false)
    (hi : s.input = .stream e :: rest) (ha : s.accepting = false) : step s = .refused s.whyRefused := by
  cases e with
  | char c =>
    rw [step_of_takeEvent_char (takeEvent_of_char_offered hb hi)]
    exact exec_of_not_accepting _ ha
  | eos =>
    rw [step_of_eos_offered hb hi]
    exact guarded_of_not_accepting ha

/-- With no `Transmit` outstanding, an `RST` offered alone is taken, whatever the other registers hold (R80, R89). -/
theorem step_of_reset_offered {s : State} {c : Cfg} {rest : List Offer} (hb : s.busy = false)
    (hi : s.input = .reset c :: rest) : step s = .next (takeRst c (s.setInput rest)) := by
  simp [step, takeEvent, hb, hi]

/-- `RST` leaves a block that can take stream events, whatever state it was in (R89, R90). -/
theorem takeRst_accepting (c : Cfg) (s : State) : (takeRst c s).accepting = true := by
  rw [takeRst_eq]
  rfl

/-- Settles O10: each of the three conditions denies that the block is accepting, and the reason is the first of them
that holds; `RST` is behind no guard. -/
theorem streamEventsRefusedUntilReset : Obligations.StreamEventsRefusedUntilReset := by
  intro s rest hb
  refine ⟨fun e hi => ⟨fun hc => ?neverReset, fun hc hh => ?halted, fun hc hh hf => ?faulted⟩, fun c hi => ?revived⟩
  case neverReset =>
    rw [step_of_stream_not_accepting hb hi (by simp [State.accepting, hc])]
    simp [State.whyRefused, hc]
  case halted =>
    rw [step_of_stream_not_accepting hb hi (by simp [State.accepting, hh])]
    simp [State.whyRefused, hc, hb, hh]
  case faulted =>
    rw [step_of_stream_not_accepting hb hi (by simp [State.accepting, hf])]
    simp [State.whyRefused, hc, hb, hh]
  case revived => exact ⟨_, step_of_reset_offered hb hi, takeRst_accepting c _⟩

/-! ### The end of a run (R66, R71, R93) -/

theorem endedNormally_iff (s : State) :
    s.endedNormally = true ↔ s.halted = true ∧ s.fault = .none ∧ s.busy = false := by
  simp [State.endedNormally, and_assoc]

theorem endedAbnormally_iff (s : State) : s.endedAbnormally = true ↔ s.fault ≠ .none ∧ s.busy = false := by
  simp [State.endedAbnormally]

/-- Once it has been reset and while no `Transmit` is outstanding, a block is kept from accepting by `halted` or by
`fault` only. -/
theorem not_accepting_iff_ended {s : State} (hc : s.constructed = true) (hb : s.busy = false) :
    s.accepting = false ↔ s.endedNormally = true ∨ s.endedAbnormally = true := by
  rw [← Bool.not_eq_true, accepting_iff, endedNormally_iff, endedAbnormally_iff]
  by_cases hf : s.fault = .none <;> simp [hc, hb, hf]

/-- `EOS` goes on only from an accepting block, where no fault and no `Transmit` stands in the way of a normal end. -/
theorem endedNormally_of_takeEos {s t : State} (h : takeEos s = .next t) : t.endedNormally = true := by
  obtain ⟨ha, hnext⟩ := guarded_next h
  obtain ⟨-, hb, -, hf⟩ := (accepting_iff s).1 ha
  cases hnext
  exact (endedNormally_iff _).2 ⟨rfl, hf, hb⟩

/-- An instruction that goes on leaves no fault, or it has overflowed and changed nothing else (R71). -/
theorem exec_fault {i : Instr} {s t : State} (h : exec i s = .next t) :
    t.fault = .none ∨ t = { s with fault := .bufOverflow } := by
  obtain ⟨-, -, -, hf⟩ := (accepting_iff s).1 (accepting_of_exec_next h)
  cases i with
  | nibh n z => obtain ⟨-, -, rfl⟩ := exec_nibh_next h; exact .inl hf
  | nibl n z =>
    obtain ⟨-, -, ⟨-, rfl⟩ | ⟨-, rfl⟩⟩ := exec_nibl_next h
    · exact .inl hf
    · exact .inr rfl
  | sep =>
    obtain ⟨-, ⟨-, rfl⟩ | ⟨-, rfl⟩⟩ := exec_sep_next h
    · exact .inl hf
    · exact .inr rfl
  | eot =>
    obtain ⟨-, ⟨-, -, rfl⟩ | ⟨-, -, rfl⟩ | ⟨-, rfl⟩⟩ := exec_eot_next h
    · exact .inl hf
    · exact .inl hf
    · exact .inr rfl
  | ign c => obtain ⟨-, rfl⟩ := exec_ign_next h; exact .inl hf

/-- Settles O35: a fault an instruction leaves is an overflow's, raised with no `Transmit` outstanding. -/
theorem runEndsAsStated : Obligations.RunEndsAsStated := by
  refine ⟨fun s => not_accepting_iff_ended, fun s t => endedNormally_of_takeEos, fun i s t h hfault => ?_⟩
  obtain ⟨-, hb, -, -⟩ := (accepting_iff s).1 (accepting_of_exec_next h)
  obtain hnone | hoverflow := exec_fault h
  · exact absurd hnone hfault
  · exact (endedAbnormally_iff t).2 ⟨hfault, by rw [hoverflow]; exact hb⟩

end Sys2Proof.Machine
end

section
/-!
PROOFS. The exceptions (spec/60_exceptions.md): the Transmitter's statuses change nothing but the reports, a Transmitter
that never answers holds the block, the block waits with all its state kept, and `RST` goes before a stream event.
-/

namespace Sys2Proof.Machine

/-! ### Two runs that agree -/

section Agree

variable {R S : State → State → Prop} {s t : State} {a b c : Result}

/-- Two answers agree in one of three ways. -/
theorem agree_cases (h : Agree R a b) :
    (∃ s t, a = .next s ∧ b = .next t ∧ R s t) ∨ (∃ r, a = .fault r ∧ b = .fault r) ∨
      (∃ r, a = .refused r ∧ b = .refused r) := by
  cases a <;> cases b
  case next.next s t => exact .inl ⟨s, t, rfl, rfl, h⟩
  case fault.fault r q => exact .inr (.inl ⟨r, rfl, congrArg _ (Eq.symm h)⟩)
  case refused.refused r q => exact .inr (.inr ⟨r, rfl, congrArg _ (Eq.symm h)⟩)
  all_goals exact h.elim

theorem agree_mono (hRS : ∀ s t, R s t → S s t) (h : Agree R a b) : Agree S a b := by
  obtain ⟨s, t, rfl, rfl, hst⟩ | ⟨r, rfl, rfl⟩ | ⟨r, rfl, rfl⟩ := agree_cases h
  · exact hRS s t hst
  · rfl
  · rfl

theorem agree_comp (hab : Agree R a b) (hbc : Agree S b c) : Agree (Relation.Comp R S) a c := by
  obtain ⟨s, t, rfl, rfl, hst⟩ | ⟨r, rfl, rfl⟩ | ⟨r, rfl, rfl⟩ := agree_cases hab
  · cases c with
    | next u => exact ⟨t, hst, hbc⟩
    | fault r => exact hbc
    | refused r => exact hbc
  · cases c <;> exact hbc
  · cases c <;> exact hbc

/-- Blocks that wait alike and are offered the same take the same event, so their steps agree where their meanings of
every event do. -/
theorem agree_step (hbusy : s.busy = t.busy) (hinput : s.input = t.input) (wait : R s t)
    (rst : ∀ c l, R (takeRst c (s.setInput l)) (takeRst c (t.setInput l)))
    (eos : ∀ l, Agree R (takeEos (s.setInput l)) (takeEos (t.setInput l)))
    (char : ∀ c l, Agree R (exec (instrAt s c) (s.setInput l)) (exec (instrAt t c) (t.setInput l))) :
    Agree R (step s) (step t) := by
  unfold step takeEvent
  rw [← hbusy, ← hinput]
  cases s.busy with
  | true => exact wait
  | false =>
    obtain _ | ⟨(c | _) | c | ⟨c, e⟩, rest⟩ := s.input
    · exact wait
    · exact char c rest
    · exact eos rest
    · exact rst c rest
    · exact rst c (.stream e :: rest)

/-- Where steps agree, runs agree. -/
theorem agree_run (hstep : ∀ s t, R s t → Agree R (step s) (step t)) (k : Nat) (h : R s t) :
    Agree R (run k s) (run k t) := by
  induction k generalizing s t with
  | zero => exact h
  | succ k ih =>
    obtain ⟨u, v, hs, ht, huv⟩ | ⟨r, hs, ht⟩ | ⟨r, hs, ht⟩ := agree_cases (hstep s t h)
    · rw [run_succ_of_next k hs, run_succ_of_next k ht]
      exact ih huv
    · rw [run_succ_of_fault k hs, run_succ_of_fault k ht]
      rfl
    · rw [run_succ_of_refused k hs, run_succ_of_refused k ht]
      rfl

end Agree

/-! ### The statuses change only the reports (R74, R86) -/

/-- Two states that differ at most in the statuses still to be drawn and in the reports made, both with a Transmitter
that answers every request: `SameButStatus` with one `cur`. -/
inductive SameButReports (s : State) : State → Prop
  | intro (o e : List Output) (n : Nat) (out : requests o = requests s.out)
      (earlier : requests e = requests s.earlier) (answers : s.txSilentAt = none) :
      SameButReports s { s with out := o, earlier := e, draws := n }

/-- States that differ in a dead `cur` and in the statuses are two differences apart, one after the other. -/
theorem sameButStatus_iff_comp (s t : State) :
    SameButStatus s t ↔ Relation.Comp SameButDeadCur SameButReports s t := by
  constructor
  · rintro ⟨ht, hcur, hout, hearlier, hanswers⟩
    refine ⟨s.setCur t.cur, ⟨rfl, hcur⟩, ?_⟩
    rw [ht]
    exact .intro (s := s.setCur t.cur) t.out t.earlier t.draws hout hearlier hanswers
  · rintro ⟨u, hdead, ⟨o, e, n, hout, hearlier, hanswers⟩⟩
    obtain rfl | ⟨hp, v, rfl⟩ := sameButDeadCur_cases hdead
    · exact ⟨rfl, fun _ => rfl, hout, hearlier, hanswers⟩
    · exact ⟨rfl, by simp [hp], hout, hearlier, hanswers⟩

/-- The dispatch sends the same batch, and the report of a status is no request (R72, R73). -/
theorem dispatchBatch_agrees_on_reports {s t : State} (h : SameButReports s t) :
    Agree SameButReports (dispatchBatch s) (dispatchBatch t) := by
  obtain ⟨o, e, n, hout, hearlier, hanswers⟩ := h
  rw [dispatchBatch_eq, dispatchBatch_eq, transmit_of_answers _ (by simp [hanswers]),
    transmit_of_answers _ (by simp [hanswers])]
  exact agree_next (.intro _ _ _ (by simp [hout]) hearlier hanswers)

/-- No instruction reads the output made, and only the answered transmission of `EOT` draws a status. -/
theorem exec_agrees_on_reports (i : Instr) {s t : State} (h : SameButReports s t) :
    Agree SameButReports (exec i s) (exec i t) := by
  obtain ⟨o, e, n, hout, hearlier, hanswers⟩ := h
  cases i with
  | nibh x z => exact agree_guarded rfl rfl (agree_requirePend rfl (agree_next (.intro o e n hout hearlier hanswers)))
  | nibl x z =>
    refine agree_guarded rfl rfl (agree_requirePend rfl (agree_withRoom rfl (.intro o e n hout hearlier hanswers) ?_))
    rw [completeByte_eq, completeByte_eq]
    exact agree_next (.intro o e n hout hearlier hanswers)
  | sep =>
    refine agree_guarded rfl rfl (agree_withRoom rfl (.intro o e n hout hearlier hanswers) ?_)
    rw [appendSyms_sep, appendSyms_sep]
    exact agree_next (.intro o e n hout hearlier hanswers)
  | eot =>
    refine agree_guarded rfl rfl (agree_withRoom rfl (.intro o e n hout hearlier hanswers) ?_)
    rw [appendSym_tail, appendSym_tail]
    exact dispatchBatch_agrees_on_reports (.intro o e n hout hearlier hanswers)
  | ign c => exact agree_guarded rfl rfl (agree_next (.intro o e n hout hearlier hanswers))

/-- `RST` puts the output of the run into that of the runs before it, requests and reports alike (R93). -/
theorem SameButReports.takeRst {s t : State} (h : SameButReports s t) (c : Cfg) :
    SameButReports (takeRst c s) (takeRst c t) := by
  obtain ⟨o, e, n, hout, hearlier, hanswers⟩ := h
  rw [takeRst_eq, takeRst_eq]
  exact .intro [] (e ++ o) n rfl (by simp [hout, hearlier]) hanswers

/-- What has been sent and the statuses still to be drawn decide neither which event is taken nor whether it is refused,
and of what it does only the reports. -/
theorem step_agrees_on_reports (s t : State) (h : SameButReports s t) : Agree SameButReports (step s) (step t) := by
  obtain ⟨o, e, n, hout, hearlier, hanswers⟩ := id h
  have hoffers (l : List Offer) :
      SameButReports (s.setInput l) (State.setInput l { s with out := o, earlier := e, draws := n }) :=
    .intro o e n hout hearlier hanswers
  refine agree_step rfl rfl h (fun c l => (hoffers l).takeRst c) (fun l => ?_)
    fun c l => exec_agrees_on_reports (instrAt s c) (hoffers l)
  exact agree_guarded rfl rfl (agree_next (.intro o e n hout hearlier hanswers))

/-- Settles O44: the runs agree but for a dead `cur` and but for the statuses, each difference by an induction of its
own; and where the `cur` is the same at the start, only the second difference is there. -/
theorem statusesChangeOnlyTheReports : Obligations.StatusesChangeOnlyTheReports := by
  intro k s t h
  obtain ⟨u, hdead, hreports⟩ := (sameButStatus_iff_comp s t).1 h
  by_cases hcur : s.cur = t.cur
  · have hsame : SameButReports s t := by
      obtain ⟨ht, -, hout, hearlier, hanswers⟩ := h
      rw [ht, ← hcur]
      exact .intro t.out t.earlier t.draws hout hearlier hanswers
    refine agree_mono (fun a b hab => ?_) (agree_run step_agrees_on_reports k hsame)
    exact ⟨(sameButStatus_iff_comp a b).2 ⟨a, sameButDeadCur_refl a, hab⟩, fun _ => by cases hab; rfl⟩
  · have hruns := agree_comp (agree_run deadCurIsNeverSeen k hdead) (agree_run step_agrees_on_reports k hreports)
    exact agree_mono (fun a b hab => ⟨(sameButStatus_iff_comp a b).2 hab, fun heq => absurd heq hcur⟩) hruns

/-! ### A Transmitter that never answers (R75) -/

/-- Settles O17: the unanswered `EOT` has sent its request and left the block busy, and a busy block waits. -/
theorem eotHangsOnASilentTransmitter : Obligations.EotHangsOnASilentTransmitter := by
  intro s ha hroom hsilent
  have heot : exec .eot s = .next (eotSilent s) := by
    rw [exec, execEot_eq ha ((roomFor_iff 2 s).2 hroom), if_pos hsilent]
  exact ⟨eotSilent s, heot, rfl, run_of_busy rfl⟩

/-! ### The taking of `RST` and waiting (R75, R80, R88, R90) -/

/-- With no `Transmit` outstanding, an `RST` offered together with a stream event is taken, and the stream event stays
on offer (R80). -/
theorem step_of_resetAndStream_offered {s : State} {c : Cfg} {e : StreamEvent} {rest : List Offer}
    (hb : s.busy = false) (hi : s.input = .resetAndStream c e :: rest) :
    step s = .next (takeRst c (s.setInput (.stream e :: rest))) := by
  simp [step, takeEvent, hb, hi]

/-- Settles O8, by the form of the offer. -/
theorem resetGoesBeforeAStreamEvent : Obligations.ResetGoesBeforeAStreamEvent :=
  fun _ _ _ _ hb => ⟨step_of_reset_offered hb, step_of_resetAndStream_offered hb⟩

/-- With nothing offered the block waits for an event (R88). -/
theorem step_of_nothing_offered {s : State} (hb : s.busy = false) (hi : s.input = []) : step s = .next s := by
  simp [step, takeEvent, hb, hi]

/-- With a `Transmit` outstanding the block waits for its answer (R75). -/
theorem step_of_busy {s : State} (hb : s.busy = true) : step s = .next s := by
  simp [step, takeEvent, hb]

/-- Settles O9: the block waits for one or for the other. -/
theorem waitingKeepsAllState : Obligations.WaitingKeepsAllState :=
  fun _ => ⟨step_of_busy, step_of_nothing_offered⟩

end Sys2Proof.Machine
end

section
/-!
PROOFS. The reset (spec/70_reset_and_hazards.md): the state an offered `RST` constructs, and that it leaves what was
sent and the Transmitter alone and keeps nothing of the encoder's registers.
-/

namespace Sys2Proof.Machine

/-- The Transmitter will answer after `RST` exactly where it would have without it (R92). -/
theorem takeRst_txAnswers (c : Cfg) (s : State) : (takeRst c s).txAnswers = s.txAnswers := by
  simp only [State.txAnswers, takeRst_eq]

/-- The status the Transmitter answers with next is the one it would have answered with (R92). -/
theorem takeRst_txStatus (c : Cfg) (s : State) : (takeRst c s).txStatus = s.txStatus := by
  simp only [State.txStatus, takeRst_eq]

/-- Of the state before it `RST` reads only what was sent, the offers, the parameters, the Transmitter's fields and the
counter of resets (R92). -/
theorem takeRst_eq_of_agree_outside_registers {c : Cfg} {s t : State} (hparams : s.params = t.params)
    (hinput : s.input = t.input) (hsent : s.sent = t.sent) (hdraws : s.draws = t.draws)
    (hresets : s.resets = t.resets) (hsilent : s.txSilentAt = t.txSilentAt) : takeRst c s = takeRst c t := by
  have hearlier : s.earlier ++ s.out = t.earlier ++ t.out := hsent
  rw [takeRst_eq, takeRst_eq, hparams, hinput, hearlier, hdraws, hresets, hsilent]

/-- Settles O20, by the step an offered `RST` is and the state it leaves; `cur` is the free value of this reset. -/
theorem rstConstructsAFreshState : Obligations.RstConstructsAFreshState := by
  intro s c rest hb hi
  refine ⟨Config.curAfterReset s.resets, ?_⟩
  rw [step_of_reset_offered hb hi, takeRst_eq]
  rfl

/-- Settles O21: the first part field by field, the second by what `RST` reads. -/
theorem rstForgetsThePreviousRun : Obligations.RstForgetsThePreviousRun := by
  refine ⟨fun c s => ?_, fun c s t => takeRst_eq_of_agree_outside_registers⟩
  have hfields : (takeRst c s).out = [] ∧ (takeRst c s).draws = s.draws ∧
      (takeRst c s).txSilentAt = s.txSilentAt := by
    simp only [takeRst_eq, and_self]
  obtain ⟨hout, hdraws, hsilent⟩ := hfields
  exact ⟨takeRst_sent c s, hout, takeRst_txAnswers c s, takeRst_txStatus c s, hdraws, hsilent⟩

end Sys2Proof.Machine
end
